-- ==== Sys2Proof/Word.lean ====
section
/-! DEFINITION. The word types of CHIP8-CORE and their zero extensions (00_scope.md R7, R9): every value is unsigned. -/

namespace Sys2Proof

/-- Eight bits: a data register, a timer, a memory byte (R20, R30, R31, R50). -/
abbrev Byte := BitVec 8

/-- Sixteen bits: pc, I, a stack entry, an instruction word (R23, R27, R28, R70). -/
abbrev Word := BitVec 16

/-- The 12-bit address immediate nnn (R71). -/
abbrev Addr12 := BitVec 12

/-- A data register's index, the 4-bit field x or y; every value names a register (R20, R73). -/
abbrev Reg := BitVec 4

/-- The 4-bit sprite height n (R71, R73). -/
abbrev Nibble := BitVec 4

end Sys2Proof
end

