-- ==== Sys2Proof/Syntax.lean ====
section
/-! DEFINITION. The 35 instructions of CHIP8-CORE (30_encoding.md R76, R84), one constructor per row of spec/opcode_table.json, in the table's order. -/

namespace Sys2Proof

/-- An instruction with its operands as the encoding gives them (R71, R73). Every operand value is legal (R73, R74). -/
inductive Instr where
  /-- 0000 (R110) -/
  | nop
  /-- 00E0 (R181) -/
  | cls
  /-- 00EE (R111) -/
  | ret
  /-- 1nnn, JP nnn (R112) -/
  | jpNnn (nnn : Addr12)
  /-- 2nnn, CALL nnn (R113) -/
  | callNnn (nnn : Addr12)
  /-- 3xnn, SE Vx, nn (R114) -/
  | seVxNn (x : Reg) (nn : Byte)
  /-- 4xnn, SNE Vx, nn (R115) -/
  | sneVxNn (x : Reg) (nn : Byte)
  /-- 5xy0, SE Vx, Vy (R116) -/
  | seVxVy (x y : Reg)
  /-- 6xnn, LD Vx, nn (R132) -/
  | ldVxNn (x : Reg) (nn : Byte)
  /-- 7xnn, ADD Vx, nn (R133) -/
  | addVxNn (x : Reg) (nn : Byte)
  /-- 8xy0, LD Vx, Vy (R134) -/
  | ldVxVy (x y : Reg)
  /-- 8xy1, OR Vx, Vy (R135) -/
  | orVxVy (x y : Reg)
  /-- 8xy2, AND Vx, Vy (R136) -/
  | andVxVy (x y : Reg)
  /-- 8xy3, XOR Vx, Vy (R137) -/
  | xorVxVy (x y : Reg)
  /-- 8xy4, ADD Vx, Vy (R138) -/
  | addVxVy (x y : Reg)
  /-- 8xy5, SUB Vx, Vy (R139) -/
  | subVxVy (x y : Reg)
  /-- 8xy6, SHR Vx with an optional Vy (R140) -/
  | shrVxVy (x y : Reg)
  /-- 8xy7, SUBN Vx, Vy (R141) -/
  | subnVxVy (x y : Reg)
  /-- 8xyE, SHL Vx with an optional Vy (R142) -/
  | shlVxVy (x y : Reg)
  /-- 9xy0, SNE Vx, Vy (R117) -/
  | sneVxVy (x y : Reg)
  /-- Annn, LD I, nnn (R160) -/
  | ldINnn (nnn : Addr12)
  /-- Bnnn, JP V0, nnn (R118) -/
  | jpV0Nnn (nnn : Addr12)
  /-- Cxnn, RND Vx, nn (R143) -/
  | rndVxNn (x : Reg) (nn : Byte)
  /-- Dxyn, DRW Vx, Vy, n (R182) -/
  | drwVxVyN (x y : Reg) (n : Nibble)
  /-- Ex9E, SKP Vx (R190) -/
  | skpVx (x : Reg)
  /-- ExA1, SKNP Vx (R191) -/
  | sknpVx (x : Reg)
  /-- Fx07, LD Vx, DT (R192) -/
  | ldVxDt (x : Reg)
  /-- Fx0A, LD Vx, K (R193) -/
  | ldVxK (x : Reg)
  /-- Fx15, LD DT, Vx (R194) -/
  | ldDtVx (x : Reg)
  /-- Fx18, LD ST, Vx (R195) -/
  | ldStVx (x : Reg)
  /-- Fx1E, ADD I, Vx (R161) -/
  | addIVx (x : Reg)
  /-- Fx29, LD F, Vx (R162) -/
  | ldFVx (x : Reg)
  /-- Fx33, LD B, Vx (R163) -/
  | ldBVx (x : Reg)
  /-- Fx55, LD [I], Vx (R164) -/
  | ldMemIVx (x : Reg)
  /-- Fx65, LD Vx, [I] (R165) -/
  | ldVxMemI (x : Reg)
  deriving DecidableEq, Repr

end Sys2Proof
end

