-- ==== Sys2Proof/WellFormed.lean ====
section
/-! DEFINITION. Which instruction words are legal, from the list of illegal words of 30_encoding.md R77, written on numbers and
independently of the decoder.

An `Instr` needs no check of its own: its operands have exactly the widths of R71, every index is a register, every immediate and every
sprite height is legal, and x = y and x = 0xF are legal everywhere (R73, R74). So every term of `Instr` is well formed, and what can be
ill formed is a word. -/

namespace Sys2Proof

/-- R77, first line: a 0nnn other than 0000, 00E0 and 00EE. -/
def illegalZero (w : Nat) : Bool :=
  w / 0x1000 == 0 && !(w == 0x0000 || w == 0x00E0 || w == 0x00EE)

/-- R77, second line: 5xyN with N not 0. -/
def illegalFive (w : Nat) : Bool :=
  w / 0x1000 == 5 && w % 0x10 != 0

/-- R77, third line: 8xyN with N in 8, 9, A, B, C, D, F. -/
def illegalEight (w : Nat) : Bool :=
  w / 0x1000 == 8 && [0x8, 0x9, 0xA, 0xB, 0xC, 0xD, 0xF].contains (w % 0x10)

/-- R77, fourth line: 9xyN with N not 0. -/
def illegalNine (w : Nat) : Bool :=
  w / 0x1000 == 9 && w % 0x10 != 0

/-- R77, fifth line: ExNN with NN not 9E or A1. -/
def illegalE (w : Nat) : Bool :=
  w / 0x1000 == 0xE && !([0x9E, 0xA1].contains (w % 0x100))

/-- R77, sixth line: FxNN with NN not one of the nine of R75. -/
def illegalF (w : Nat) : Bool :=
  w / 0x1000 == 0xF && !([0x07, 0x0A, 0x15, 0x18, 0x1E, 0x29, 0x33, 0x55, 0x65].contains (w % 0x100))

/-- R77: the word is legal when it is in none of the six lines. -/
def legalWord (op : Word) : Bool :=
  !(illegalZero op.toNat || illegalFive op.toNat || illegalEight op.toNat || illegalNine op.toNat
    || illegalE op.toNat || illegalF op.toNat)

end Sys2Proof
end

