-- ==== Sys2Proof/Decode.lean ====
section
/-! DEFINITION. The decoder of 30_encoding.md R76, total on words and on byte lists, the encoder written from the formats of R72,
and the rows of spec/opcode_table.json. -/

namespace Sys2Proof

/-- Why bytes are no instruction. -/
inductive DecodeError where
  /-- The word matches no pattern (R77). -/
  | unrecognized (op : Word)
  /-- Fewer than the two bytes every instruction has (R70). -/
  | truncated (available : Nat)
  deriving DecidableEq, Repr

/-- d1 = op[15:12] (R71). -/
def fieldD1 (op : Word) : BitVec 4 := op.extractLsb' 12 4
/-- x = op[11:8] (R71). -/
def fieldX (op : Word) : Reg := op.extractLsb' 8 4
/-- y = op[7:4] (R71). -/
def fieldY (op : Word) : Reg := op.extractLsb' 4 4
/-- n = op[3:0] (R71). -/
def fieldN (op : Word) : Nibble := op.extractLsb' 0 4
/-- nn = op[7:0] (R71). -/
def fieldNN (op : Word) : Byte := op.extractLsb' 0 8
/-- nnn = op[11:0] (R71). -/
def fieldNNN (op : Word) : Addr12 := op.extractLsb' 0 12

/-- The words with d1 = 0 (R75). -/
def decode0 (op : Word) : Except DecodeError Instr :=
  if op = 0x0000#16 then .ok .nop
  else if op = 0x00E0#16 then .ok .cls
  else if op = 0x00EE#16 then .ok .ret
  else .error (.unrecognized op)

/-- The words with d1 = 8, by n (R75). -/
def decode8 (op : Word) : Except DecodeError Instr :=
  match fieldN op with
  | 0x0#4 => .ok (.ldVxVy (fieldX op) (fieldY op))
  | 0x1#4 => .ok (.orVxVy (fieldX op) (fieldY op))
  | 0x2#4 => .ok (.andVxVy (fieldX op) (fieldY op))
  | 0x3#4 => .ok (.xorVxVy (fieldX op) (fieldY op))
  | 0x4#4 => .ok (.addVxVy (fieldX op) (fieldY op))
  | 0x5#4 => .ok (.subVxVy (fieldX op) (fieldY op))
  | 0x6#4 => .ok (.shrVxVy (fieldX op) (fieldY op))
  | 0x7#4 => .ok (.subnVxVy (fieldX op) (fieldY op))
  | 0xE#4 => .ok (.shlVxVy (fieldX op) (fieldY op))
  | _ => .error (.unrecognized op)

/-- The words with d1 = E, by nn (R75). -/
def decodeE (op : Word) : Except DecodeError Instr :=
  match fieldNN op with
  | 0x9E#8 => .ok (.skpVx (fieldX op))
  | 0xA1#8 => .ok (.sknpVx (fieldX op))
  | _ => .error (.unrecognized op)

/-- The words with d1 = F, by nn (R75). -/
def decodeF (op : Word) : Except DecodeError Instr :=
  match fieldNN op with
  | 0x07#8 => .ok (.ldVxDt (fieldX op))
  | 0x0A#8 => .ok (.ldVxK (fieldX op))
  | 0x15#8 => .ok (.ldDtVx (fieldX op))
  | 0x18#8 => .ok (.ldStVx (fieldX op))
  | 0x1E#8 => .ok (.addIVx (fieldX op))
  | 0x29#8 => .ok (.ldFVx (fieldX op))
  | 0x33#8 => .ok (.ldBVx (fieldX op))
  | 0x55#8 => .ok (.ldMemIVx (fieldX op))
  | 0x65#8 => .ok (.ldVxMemI (fieldX op))
  | _ => .error (.unrecognized op)

/-- decode of R76: total on the 65536 words, exact on every fixed nibble (R81). The sixteen values of d1 all have an arm, so the last
one is never reached. -/
def decode (op : Word) : Except DecodeError Instr :=
  match fieldD1 op with
  | 0x0#4 => decode0 op
  | 0x1#4 => .ok (.jpNnn (fieldNNN op))
  | 0x2#4 => .ok (.callNnn (fieldNNN op))
  | 0x3#4 => .ok (.seVxNn (fieldX op) (fieldNN op))
  | 0x4#4 => .ok (.sneVxNn (fieldX op) (fieldNN op))
  | 0x5#4 => if fieldN op = 0x0#4 then .ok (.seVxVy (fieldX op) (fieldY op)) else .error (.unrecognized op)
  | 0x6#4 => .ok (.ldVxNn (fieldX op) (fieldNN op))
  | 0x7#4 => .ok (.addVxNn (fieldX op) (fieldNN op))
  | 0x8#4 => decode8 op
  | 0x9#4 => if fieldN op = 0x0#4 then .ok (.sneVxVy (fieldX op) (fieldY op)) else .error (.unrecognized op)
  | 0xA#4 => .ok (.ldINnn (fieldNNN op))
  | 0xB#4 => .ok (.jpV0Nnn (fieldNNN op))
  | 0xC#4 => .ok (.rndVxNn (fieldX op) (fieldNN op))
  | 0xD#4 => .ok (.drwVxVyN (fieldX op) (fieldY op) (fieldN op))
  | 0xE#4 => decodeE op
  | 0xF#4 => decodeF op
  | _ => .error (.unrecognized op)

/-- The instruction at the head of a byte list and the bytes after it: two bytes, big-endian (R70). -/
def decodeBytes (bytes : List Byte) : Except DecodeError (Instr × List Byte) :=
  match bytes with
  | high :: low :: rest => (decode (high ++ low)).map (·, rest)
  | [_] => .error (.truncated 1)
  | [] => .error (.truncated 0)

/-- The word of an instruction, each format of R72 written as its pattern of R76. -/
def encode (i : Instr) : Word :=
  match i with
  | .nop => 0x0000#16
  | .cls => 0x00E0#16
  | .ret => 0x00EE#16
  | .jpNnn nnn => 0x1#4 ++ nnn
  | .callNnn nnn => 0x2#4 ++ nnn
  | .seVxNn x nn => 0x3#4 ++ x ++ nn
  | .sneVxNn x nn => 0x4#4 ++ x ++ nn
  | .seVxVy x y => 0x5#4 ++ x ++ y ++ 0x0#4
  | .ldVxNn x nn => 0x6#4 ++ x ++ nn
  | .addVxNn x nn => 0x7#4 ++ x ++ nn
  | .ldVxVy x y => 0x8#4 ++ x ++ y ++ 0x0#4
  | .orVxVy x y => 0x8#4 ++ x ++ y ++ 0x1#4
  | .andVxVy x y => 0x8#4 ++ x ++ y ++ 0x2#4
  | .xorVxVy x y => 0x8#4 ++ x ++ y ++ 0x3#4
  | .addVxVy x y => 0x8#4 ++ x ++ y ++ 0x4#4
  | .subVxVy x y => 0x8#4 ++ x ++ y ++ 0x5#4
  | .shrVxVy x y => 0x8#4 ++ x ++ y ++ 0x6#4
  | .subnVxVy x y => 0x8#4 ++ x ++ y ++ 0x7#4
  | .shlVxVy x y => 0x8#4 ++ x ++ y ++ 0xE#4
  | .sneVxVy x y => 0x9#4 ++ x ++ y ++ 0x0#4
  | .ldINnn nnn => 0xA#4 ++ nnn
  | .jpV0Nnn nnn => 0xB#4 ++ nnn
  | .rndVxNn x nn => 0xC#4 ++ x ++ nn
  | .drwVxVyN x y n => 0xD#4 ++ x ++ y ++ n
  | .skpVx x => 0xE#4 ++ x ++ 0x9E#8
  | .sknpVx x => 0xE#4 ++ x ++ 0xA1#8
  | .ldVxDt x => 0xF#4 ++ x ++ 0x07#8
  | .ldVxK x => 0xF#4 ++ x ++ 0x0A#8
  | .ldDtVx x => 0xF#4 ++ x ++ 0x15#8
  | .ldStVx x => 0xF#4 ++ x ++ 0x18#8
  | .addIVx x => 0xF#4 ++ x ++ 0x1E#8
  | .ldFVx x => 0xF#4 ++ x ++ 0x29#8
  | .ldBVx x => 0xF#4 ++ x ++ 0x33#8
  | .ldMemIVx x => 0xF#4 ++ x ++ 0x55#8
  | .ldVxMemI x => 0xF#4 ++ x ++ 0x65#8

/-- A word as the memory holds it: the high byte at the lower address (R53, R70). -/
def wordBytes (op : Word) : List Byte := [op.extractLsb' 8 8, op.extractLsb' 0 8]

/-- The instruction the decoder reads from a table word of nbits bits (bit 0 the least significant), the bits above nbits zero. -/
def decodeTableWord (nbits w : Nat) : Option Instr :=
  if nbits ≤ 16 then
    match decodeBytes (wordBytes (BitVec.ofNat 16 (w % 2 ^ nbits))) with
    | .ok (i, _) => some i
    | .error _ => none
  else none

/-- One row of spec/opcode_table.json: the row selects op when op AND mask = bits. -/
structure OpcodeRow where
  bits : Word
  mask : Word
  deriving DecidableEq, Repr

/-- "`match` and `mask` select a word w when `w AND mask = match`" (INDEX.md, R76). -/
def OpcodeRow.selects (r : OpcodeRow) (op : Word) : Bool := op &&& r.mask == r.bits

/-- The row of spec/opcode_table.json an instruction stands for. -/
def Instr.row (i : Instr) : OpcodeRow :=
  match i with
  | .nop => ⟨0x0000, 0xFFFF⟩
  | .cls => ⟨0x00E0, 0xFFFF⟩
  | .ret => ⟨0x00EE, 0xFFFF⟩
  | .jpNnn _ => ⟨0x1000, 0xF000⟩
  | .callNnn _ => ⟨0x2000, 0xF000⟩
  | .seVxNn _ _ => ⟨0x3000, 0xF000⟩
  | .sneVxNn _ _ => ⟨0x4000, 0xF000⟩
  | .seVxVy _ _ => ⟨0x5000, 0xF00F⟩
  | .ldVxNn _ _ => ⟨0x6000, 0xF000⟩
  | .addVxNn _ _ => ⟨0x7000, 0xF000⟩
  | .ldVxVy _ _ => ⟨0x8000, 0xF00F⟩
  | .orVxVy _ _ => ⟨0x8001, 0xF00F⟩
  | .andVxVy _ _ => ⟨0x8002, 0xF00F⟩
  | .xorVxVy _ _ => ⟨0x8003, 0xF00F⟩
  | .addVxVy _ _ => ⟨0x8004, 0xF00F⟩
  | .subVxVy _ _ => ⟨0x8005, 0xF00F⟩
  | .shrVxVy _ _ => ⟨0x8006, 0xF00F⟩
  | .subnVxVy _ _ => ⟨0x8007, 0xF00F⟩
  | .shlVxVy _ _ => ⟨0x800E, 0xF00F⟩
  | .sneVxVy _ _ => ⟨0x9000, 0xF00F⟩
  | .ldINnn _ => ⟨0xA000, 0xF000⟩
  | .jpV0Nnn _ => ⟨0xB000, 0xF000⟩
  | .rndVxNn _ _ => ⟨0xC000, 0xF000⟩
  | .drwVxVyN _ _ _ => ⟨0xD000, 0xF000⟩
  | .skpVx _ => ⟨0xE09E, 0xF0FF⟩
  | .sknpVx _ => ⟨0xE0A1, 0xF0FF⟩
  | .ldVxDt _ => ⟨0xF007, 0xF0FF⟩
  | .ldVxK _ => ⟨0xF00A, 0xF0FF⟩
  | .ldDtVx _ => ⟨0xF015, 0xF0FF⟩
  | .ldStVx _ => ⟨0xF018, 0xF0FF⟩
  | .addIVx _ => ⟨0xF01E, 0xF0FF⟩
  | .ldFVx _ => ⟨0xF029, 0xF0FF⟩
  | .ldBVx _ => ⟨0xF033, 0xF0FF⟩
  | .ldMemIVx _ => ⟨0xF055, 0xF0FF⟩
  | .ldVxMemI _ => ⟨0xF065, 0xF0FF⟩

end Sys2Proof
end

