-- ==== Sys2Proof/Config.lean ====
section
/-! DEFINITION. The fixed sizes of the block (00_scope.md R7), the parameters it leaves open (R8) and the free random byte (R37, R143). -/

namespace Sys2Proof

/-- MEM_SIZE (R7, R50): bytes of memory. -/
abbrev memSize : Nat := 4096

/-- PROG_BASE (R7, R57): where LOAD writes and where pc starts. -/
abbrev progBase : Nat := 0x200

/-- FONT_SIZE (R7, R55): the font region is the addresses below it. -/
abbrev fontSize : Nat := 0x50

/-- The highest address a fetch accepts (R53, R94). -/
abbrev lastFetch : Nat := 0xFFE

/-- STACK_DEPTH (R7, R28, R29). -/
abbrev stackDepth : Nat := 16

/-- The longest program image LOAD accepts, 4096 - 0x200 (R98). -/
abbrev maxImage : Nat := 3584

/-- SHIFT_SOURCE (R8, D8): the register SHR and SHL shift. -/
inductive ShiftSource where
  | vx
  | vy
  deriving DecidableEq, Repr

/-- FX1E_MODE (R8, R161, D9): the two meanings of Fx1E. -/
inductive Fx1eMode where
  | singleAdd
  | referenceDoubleAdd
  deriving DecidableEq, Repr

/-- The parameters of R8 that are fixed for one block. The free input `rnd` of R8 is the operand of the command STEP. -/
structure Config where
  /-- FONT: 16 glyphs of 5 bytes (R56). -/
  font : Vector Byte 80
  shiftSource : ShiftSource
  fx1eMode : Fx1eMode
  deriving DecidableEq, Repr

/-- The default FONT of R56, one row a glyph. PRESUMED: the spec marks these bytes as general knowledge (log 4); unsafe. -/
def Config.defaultFont : Vector Byte 80 := #v[
  0xF0, 0x90, 0x90, 0x90, 0xF0,
  0x20, 0x60, 0x20, 0x20, 0x70,
  0xF0, 0x10, 0xF0, 0x80, 0xF0,
  0xF0, 0x10, 0xF0, 0x10, 0xF0,
  0x90, 0x90, 0xF0, 0x10, 0x10,
  0xF0, 0x80, 0xF0, 0x10, 0xF0,
  0xF0, 0x80, 0xF0, 0x90, 0xF0,
  0xF0, 0x10, 0x20, 0x40, 0x40,
  0xF0, 0x90, 0xF0, 0x90, 0xF0,
  0xF0, 0x90, 0xF0, 0x10, 0xF0,
  0xF0, 0x90, 0xF0, 0x90, 0x90,
  0xE0, 0x90, 0xE0, 0x90, 0xE0,
  0xF0, 0x80, 0x80, 0x80, 0xF0,
  0xE0, 0x90, 0x90, 0x90, 0xE0,
  0xF0, 0x80, 0xF0, 0x80, 0xF0,
  0xF0, 0x80, 0xF0, 0x80, 0x80]

/-- The defaults of R8, which the rest of the spec uses. DESIGN CHOICE (log 3): the reset state takes them; unsafe. -/
def Config.default : Config where
  font := Config.defaultFont
  shiftSource := .vx
  fx1eMode := .singleAdd

/-- The byte the rnd input holds (R37, R143, D17) when a STEP without a host's byte executes the k-th RND. It has no body: no proof can
see a value, so a claim holds for every byte the host may supply. DESIGN CHOICE (log 2). -/
opaque Config.rnd : Nat → Byte

end Sys2Proof
end

