-- ==== Sys2Proof/Machine/State.lean ====
section
/-! DEFINITION. The state of CHIP8-CORE (10_state.md), plain data: everything the spec gives the machine, the parameters it takes,
its rnd input and the counter of random draws; the fault latch; the reasons a step can stop; and the state after RESET (R39). -/

namespace Sys2Proof.Machine

/-- The two kinds of fault (R210). -/
inductive FaultKind where
  | unimplementedOpcode
  | machineFault
  deriving DecidableEq, Repr

/-- The causes of R211. Code 0, no fault, is the latch's `none`. -/
inductive FaultCause where
  /-- Code 1: an illegal word (R212). -/
  | unimplemented
  /-- Code 2: 2nnn with sp = 16 (R113). -/
  | stackOverflow
  /-- Code 3: 00EE with sp = 0 (R111). -/
  | stackUnderflow
  /-- Code 4: a fetch with pc > 0xFFE (R94). -/
  | pcOutOfRange
  /-- Code 5: Fx33 or Fx55 storing into the font region (R55). -/
  | fontRegionWrite
  /-- Code 6: Ex9E or ExA1 with V[x] > 15, or SET_KEY with index > 15 (R190, R191, R199). -/
  | keyIndexOutOfRange
  /-- Code 7: LOAD with len > 3584 (R98). -/
  | loadOutOfBounds
  /-- Code 8: Fx1E under REFERENCE_DOUBLE_ADD with an outer sum of 2^16 or more (R161). -/
  | indexOverflow
  deriving DecidableEq, Repr

/-- A record of the fault latch (R36). -/
structure FaultRecord where
  kind : FaultKind
  cause : FaultCause
  /-- The pc at which the faulting command began. -/
  addr : Word
  /-- The opcode, 0 for a fetch fault, or the argument of a host command. -/
  word : Word
  deriving DecidableEq, Repr

/-- Memory that differs from its reset contents: pairs of an address and a byte, addresses strictly rising (log 8). -/
abbrev Memory := List Host.Cell

/-- 32 rows of 64 one-bit pixels: bit x of row y is fb[x, y], true is lit (R33, R180; log 6). -/
abbrev Framebuffer := Vector (BitVec 64) 32

/-- The architectural state (10_state.md), and last the three fields of the model's own. -/
structure State where
  /-- V[0]..V[15] (R20); V[15] is VF (R21). -/
  v : Vector Byte 16
  /-- The program counter (R23). -/
  pc : Word
  /-- The index register I (R27). -/
  index : Word
  /-- The return stack (R28). -/
  stack : Vector Word 16
  /-- The stack entries in use, 0..16 (R29; log 7). -/
  sp : Fin 17
  /-- The delay timer DT (R30). -/
  dt : Byte
  /-- The sound timer ST (R31). -/
  st : Byte
  /-- key[0]..key[15], true is pressed (R32, R200). -/
  key : Vector Bool 16
  /-- The framebuffer (R33). -/
  fb : Framebuffer
  /-- The 4096 bytes of memory (R50). -/
  mem : Memory
  /-- The fault latch (R36). -/
  fault : Option FaultRecord
  /-- The parameters of R8, which nothing changes (log 3). -/
  config : Config
  /-- The byte at the rnd input (R37) while a STEP for which the host supplies one runs; none between commands (log 2). -/
  rnd : Option Byte
  /-- How many RND instructions have run without a host's byte (log 2). -/
  draws : Nat
  deriving DecidableEq, Repr

/-- Reasons a step stops with a fault: NONE. The spec describes what each of its faults leaves (R214) and that STEP then changes
nothing (R92), so this model takes a fault as a next state with the latch set, and nothing raises a stop (log 1; safe). -/
inductive Fault where
  deriving DecidableEq, Repr

/-- Reasons a step is refused. -/
inductive Refusal where
  /-- Raised by an arm of `exec` whose instruction has no meaning yet, with its mnemonic; no arm does. Safe: the machine stops. -/
  | notModelled (mnemonic : String)
  deriving DecidableEq, Repr

/-- The state after RESET (R39) of a block with the parameters c. -/
def State.resetWith (c : Config) : State where
  v := Vector.replicate 16 0#8
  pc := 0x0200#16
  index := 0#16
  stack := Vector.replicate 16 0#16
  sp := 0
  dt := 0#8
  st := 0#8
  key := Vector.replicate 16 false
  fb := Vector.replicate 32 0#64
  mem := []
  fault := none
  config := c
  rnd := none
  draws := 0

/-- The state after RESET and at power-on (R39, R241), with the default parameters of R8 (DESIGN CHOICE, log 3), no byte at
the rnd input and a draw counter of 0 (DESIGN CHOICE, log 2). -/
def State.reset : State := State.resetWith Config.default

end Sys2Proof.Machine
end

