-- ==== Sys2Proof/Machine/Ops.lean ====
section
/-! DEFINITION. The named operations over registers, pc, memory, stack, keys and the fault latch: the primitives of 00_scope.md R10 to
R13, 20_memory.md and 60_exceptions.md R214. -/

namespace Sys2Proof.Machine

/-! ## Registers -/

/-- V[x] (R10, R20). -/
def State.reg (s : State) (x : Reg) : Byte := s.v[x.toNat]

/-- V[x] <- b (R10). -/
def State.setReg (s : State) (x : Reg) (b : Byte) : State := { s with v := s.v.set x.toNat b }

/-- pc <- p (R10). -/
def State.setPc (s : State) (p : Word) : State := { s with pc := p }

/-- I <- w (R27). -/
def State.setIndex (s : State) (w : Word) : State := { s with index := w }

/-- DT <- b (R30). -/
def State.setDt (s : State) (b : Byte) : State := { s with dt := b }

/-- ST <- b (R31). -/
def State.setSt (s : State) (b : Byte) : State := { s with st := b }

/-- The whole framebuffer is replaced (R33). -/
def State.setFb (s : State) (fb : Framebuffer) : State := { s with fb := fb }

/-! ## The rnd input -/

/-- The rnd input holds r, or no byte of the host's (R37). -/
def State.setRnd (s : State) (r : Option Byte) : State := { s with rnd := r }

/-- rnd[7:0] (R143): the host's byte, and where it supplied none the free byte of this draw (log 2). -/
def State.rndByte (s : State) : Byte := s.rnd.getD (Config.rnd s.draws)

/-- After an RND: a byte that the host did not supply is drawn once, so the next one is another (log 2). -/
def State.countDraw (s : State) : State := { s with draws := if s.rnd.isSome then s.draws else s.draws + 1 }

/-! ## Program counter -/

/-- pc <- (A + 2) mod 2^16, after the fetch and before execution (R95). -/
def State.advance (s : State) : State := s.setPc (s.pc + 2)

/-- A taken skip adds exactly 2 to pc (R119). -/
def State.skipIf (s : State) (taken : Bool) : State := if taken then s.setPc (s.pc + 2) else s

/-! ## Memory -/

/-- What a byte nothing has written reads as: its reset contents, FONT below 0x050 and 0x00 above (R39, R56). -/
def Memory.base (font : Vector Byte 80) (a : Nat) : Byte := if h : a < 80 then font[a] else 0#8

/-- The byte at address a. -/
def Memory.read (font : Vector Byte 80) (m : Memory) (a : Nat) : Byte :=
  match m with
  | [] => Memory.base font a
  | (a', b) :: rest => if a = a' then b else Memory.read font rest a

/-- The cell placed before the first cell with a higher address. -/
def Memory.insert (m : Memory) (a : Nat) (b : Byte) : Memory :=
  match m with
  | [] => [(a, b)]
  | c :: rest => if a < c.1 then (a, b) :: c :: rest else c :: Memory.insert rest a b

/-- The memory with byte b at address a; a byte equal to its reset contents is not listed (log 8). -/
def Memory.write (font : Vector Byte 80) (m : Memory) (a : Nat) (b : Byte) : Memory :=
  let others := m.filter (fun c => c.1 != a)
  if b = Memory.base font a then others else Memory.insert others a b

/-- Addresses rise strictly. -/
def Memory.rising (m : Memory) : Bool :=
  match m with
  | [] => true
  | c :: rest => rest.all (fun d => c.1 < d.1) && Memory.rising rest

/-- The canonical form: addresses strictly rising and below 4096, and no cell equal to its reset contents (log 8). -/
def Memory.wf (font : Vector Byte 80) (m : Memory) : Bool :=
  Memory.rising m && m.all (fun c => decide (c.1 < memSize) && c.2 != Memory.base font c.1)

/-- MemRead(a, 1) = M[a mod 4096] (R12, R52). -/
def State.readByte (s : State) (a : Nat) : Byte := Memory.read s.config.font s.mem (a % memSize)

/-- M[a mod 4096] <- b (R12, R54), after any font check. -/
def State.writeByte (s : State) (a : Nat) (b : Byte) : State :=
  { s with mem := Memory.write s.config.font s.mem (a % memSize) b }

/-- The bytes written at a, a + 1, and so on (R54, R98, R163, R164). -/
def State.writeBytes (s : State) (a : Nat) (bytes : List Byte) : State :=
  match bytes with
  | [] => s
  | b :: rest => (s.writeByte a b).writeBytes (a + 1) rest

/-- FetchWord(p) = M[p] ++ M[p + 1] (R12, R53). Its precondition p ≤ 0xFFE is checked by the step (R94). -/
def State.fetchWord (s : State) (p : Word) : Word := s.readByte p.toNat ++ s.readByte (p.toNat + 1)

/-- Some address a + k with k below count lies in the font region after the reduction mod 4096 (R55). -/
def storesIntoFont (a : Nat) (count : Nat) : Bool :=
  (List.range count).any (fun k => decide ((a + k) % memSize < fontSize))

/-! ## Return stack -/

/-- stack[sp] <- w; sp <- sp + 1, which needs sp < 16 (R29). -/
def State.push (s : State) (w : Word) (h : s.sp.val < stackDepth) : State :=
  { s with stack := s.stack.set s.sp.val w h, sp := ⟨s.sp.val + 1, Nat.succ_lt_succ h⟩ }

/-- sp <- sp - 1; pc <- stack[sp], which needs sp > 0; the entry keeps its value (R29, R111). -/
def State.popPc (s : State) (h : 0 < s.sp.val) : State :=
  { s with
    sp := ⟨s.sp.val - 1, by omega⟩
    pc := s.stack[s.sp.val - 1]'(by omega) }

/-! ## Keys -/

/-- key[k] for a key number k < 16 (R32). -/
def State.keyDown (s : State) (k : Fin 16) : Bool := s.key[k.val]

/-- key[k] <- pressed (R199). -/
def State.setKey (s : State) (k : Fin 16) (pressed : Bool) : State := { s with key := s.key.set k.val pressed }

/-- The lowest pressed key, if any (R193). -/
def State.lowestKey (s : State) : Option (Fin 16) := (List.finRange 16).find? s.keyDown

/-! ## Faults -/

/-- The kind of each cause (R211). -/
def FaultCause.kind (c : FaultCause) : FaultKind :=
  match c with
  | .unimplemented => .unimplementedOpcode
  | .stackOverflow => .machineFault
  | .stackUnderflow => .machineFault
  | .pcOutOfRange => .machineFault
  | .fontRegionWrite => .machineFault
  | .keyIndexOutOfRange => .machineFault
  | .loadOutOfBounds => .machineFault
  | .indexOverflow => .machineFault

/-- The code of each cause (R211). -/
def FaultCause.code (c : FaultCause) : Nat :=
  match c with
  | .unimplemented => 1
  | .stackOverflow => 2
  | .stackUnderflow => 3
  | .pcOutOfRange => 4
  | .fontRegionWrite => 5
  | .keyIndexOutOfRange => 6
  | .loadOutOfBounds => 7
  | .indexOverflow => 8

/-- The code the host reads from the latch, 0 when there is no fault (R211). -/
def State.faultCode (s : State) : Nat :=
  match s.fault with
  | none => 0
  | some f => f.cause.code

/-- Taking a fault (R214): the latch is set if it was none and keeps its value otherwise; nothing else changes. -/
def State.raise (s : State) (cause : FaultCause) (addr word : Word) : State :=
  match s.fault with
  | none => { s with fault := some { kind := cause.kind, cause := cause, addr := addr, word := word } }
  | some _ => s

/-- A fault of the executing instruction i (R211): pc is A + 2 and stays so, addr is A, word is the fetched word. Decoding is exact,
so that word is `encode i` (DEDUCED, log 5). -/
def State.raiseInstr (s : State) (cause : FaultCause) (i : Instr) : State := s.raise cause (s.pc - 2) (encode i)

end Sys2Proof.Machine
end

