-- ==== Sys2Proof/Machine/Flags.lean ====
section
/-! DEFINITION. The flag computations of 42_alu.md R130, and the order of the result write and the flag write (R131). -/

namespace Sys2Proof.Machine

/-- A flag as VF holds it: 1 or 0. -/
def flagByte (f : Bool) : Byte := if f then 1#8 else 0#8

/-- The carry of 8xy4: the exact sum is 256 or more (R130). -/
def carryOf (a b : Byte) : Bool := decide (256 ≤ a.toNat + b.toNat)

/-- The NOT-borrow of a - b: the minuend is at least the subtrahend, unsigned (R130). -/
def notBorrowOf (a b : Byte) : Bool := decide (b.toNat ≤ a.toNat)

/-- The bit a right shift by one shifts out, s[0] (R140). -/
def shiftedOutLow (b : Byte) : Bool := b.getLsbD 0

/-- The bit a left shift by one shifts out, s[7] (R142). -/
def shiftedOutHigh (b : Byte) : Bool := b.getLsbD 7

/-- V[x] <- result, and last V[0xF] <- flag, so the flag wins when x = 0xF (R131, R182). -/
def State.setResultFlag (s : State) (x : Reg) (result : Byte) (flag : Bool) : State :=
  (s.setReg x result).setReg 0xF#4 (flagByte flag)

end Sys2Proof.Machine
end

