-- ==== Sys2Proof/Machine/Operands.lean ====
section
/-! DEFINITION. Operand assembly (30_encoding.md R73), the one data addressing mode (43_index_memory.md R166), and the operands of the
shifts, the decimal store and the glyph address. -/

namespace Sys2Proof.Machine

/-- zext_16(nnn) (R73). -/
def zextAddr (nnn : Addr12) : Word := nnn.setWidth 16

/-- zext_16(V[x]) (R161, R162). -/
def zextByte (b : Byte) : Word := b.setWidth 16

/-- The address I + k, which the memory primitives reduce mod 4096 (R52, R166). -/
def State.dataAddr (s : State) (k : Nat) : Nat := s.index.toNat + k

/-- The byte SHR and SHL shift: V[x] or V[y], by SHIFT_SOURCE (R140, R142). -/
def State.shiftOperand (s : State) (x y : Reg) : Byte :=
  match s.config.shiftSource with
  | .vx => s.reg x
  | .vy => s.reg y

/-- Hundreds, tens and ones (R163). -/
def decimalDigits (b : Byte) : List Byte :=
  [BitVec.ofNat 8 (b.toNat / 100), BitVec.ofNat 8 (b.toNat / 10 % 10), BitVec.ofNat 8 (b.toNat % 10)]

/-- V[0], V[1], ..., V[x] (R164). -/
def State.regsUpTo (s : State) (x : Reg) : List Byte :=
  (List.range (x.toNat + 1)).map (fun k => s.reg (BitVec.ofNat 4 k))

/-- V[k] <- MemRead(I + k, 1) for k in 0..x (R165); registers and memory are separate, so the loop may read the old state. -/
def State.loadRegsUpTo (s : State) (x : Reg) : State :=
  (List.range (x.toNat + 1)).foldl (fun t k => t.setReg (BitVec.ofNat 4 k) (s.readByte (s.dataAddr k))) s

end Sys2Proof.Machine
end

