-- ==== Sys2Proof/Machine/Alu.lean ====
section
/-! DEFINITION. The ALU and register instructions (42_alu.md). None of them changes pc again or raises a fault. -/

namespace Sys2Proof.Machine

/-- R132, 6xnn LD Vx, nn. -/
def execLdVxNn (x : Reg) (nn : Byte) (s : State) : Host.Outcome State Fault Refusal := .next (s.setReg x nn)

/-- R133, 7xnn ADD Vx, nn: wraps mod 256, no flag. -/
def execAddVxNn (x : Reg) (nn : Byte) (s : State) : Host.Outcome State Fault Refusal := .next (s.setReg x (s.reg x + nn))

/-- R134, 8xy0 LD Vx, Vy. -/
def execLdVxVy (x y : Reg) (s : State) : Host.Outcome State Fault Refusal := .next (s.setReg x (s.reg y))

/-- R135, 8xy1 OR Vx, Vy: no flag. -/
def execOrVxVy (x y : Reg) (s : State) : Host.Outcome State Fault Refusal := .next (s.setReg x (s.reg x ||| s.reg y))

/-- R136, 8xy2 AND Vx, Vy: no flag. -/
def execAndVxVy (x y : Reg) (s : State) : Host.Outcome State Fault Refusal := .next (s.setReg x (s.reg x &&& s.reg y))

/-- R137, 8xy3 XOR Vx, Vy: no flag. -/
def execXorVxVy (x y : Reg) (s : State) : Host.Outcome State Fault Refusal := .next (s.setReg x (s.reg x ^^^ s.reg y))

/-- R138, 8xy4 ADD Vx, Vy with carry. -/
def execAddVxVy (x y : Reg) (s : State) : Host.Outcome State Fault Refusal :=
  .next (s.setResultFlag x (s.reg x + s.reg y) (carryOf (s.reg x) (s.reg y)))

/-- R139, 8xy5 SUB Vx, Vy with not-borrow. -/
def execSubVxVy (x y : Reg) (s : State) : Host.Outcome State Fault Refusal :=
  .next (s.setResultFlag x (s.reg x - s.reg y) (notBorrowOf (s.reg x) (s.reg y)))

/-- R140, 8xy6 SHR Vx with an optional Vy. -/
def execShrVxVy (x y : Reg) (s : State) : Host.Outcome State Fault Refusal :=
  .next (s.setResultFlag x (s.shiftOperand x y >>> 1) (shiftedOutLow (s.shiftOperand x y)))

/-- R141, 8xy7 SUBN Vx, Vy: V[y] - V[x], with the not-borrow of that difference. -/
def execSubnVxVy (x y : Reg) (s : State) : Host.Outcome State Fault Refusal :=
  .next (s.setResultFlag x (s.reg y - s.reg x) (notBorrowOf (s.reg y) (s.reg x)))

/-- R142, 8xyE SHL Vx with an optional Vy. -/
def execShlVxVy (x y : Reg) (s : State) : Host.Outcome State Fault Refusal :=
  .next (s.setResultFlag x (s.shiftOperand x y <<< 1) (shiftedOutHigh (s.shiftOperand x y)))

/-- R143, Cxnn RND Vx, nn: V[x] <- rnd AND nn. -/
def execRndVxNn (x : Reg) (nn : Byte) (s : State) : Host.Outcome State Fault Refusal :=
  .next (s.setReg x (s.rndByte &&& nn)).countDraw

end Sys2Proof.Machine
end

