-- ==== Sys2Proof/Machine/ControlFlow.lean ====
section
/-! DEFINITION. The control flow instructions (41_control_flow.md). On entry pc is A + 2 (R95). -/

namespace Sys2Proof.Machine

/-- R110, 0000 NOP. -/
def execNop (s : State) : Host.Outcome State Fault Refusal := .next s

/-- R111, 00EE RET. -/
def execRet (s : State) : Host.Outcome State Fault Refusal :=
  if h : 0 < s.sp.val then .next (s.popPc h) else .next (s.raiseInstr .stackUnderflow .ret)

/-- R112, 1nnn JP nnn. -/
def execJpNnn (nnn : Addr12) (s : State) : Host.Outcome State Fault Refusal := .next (s.setPc (zextAddr nnn))

/-- R113, 2nnn CALL nnn: the pushed pc is A + 2. -/
def execCallNnn (nnn : Addr12) (s : State) : Host.Outcome State Fault Refusal :=
  if h : s.sp.val < stackDepth then .next ((s.push s.pc h).setPc (zextAddr nnn))
  else .next (s.raiseInstr .stackOverflow (.callNnn nnn))

/-- R114, 3xnn SE Vx, nn. -/
def execSeVxNn (x : Reg) (nn : Byte) (s : State) : Host.Outcome State Fault Refusal := .next (s.skipIf (s.reg x == nn))

/-- R115, 4xnn SNE Vx, nn. -/
def execSneVxNn (x : Reg) (nn : Byte) (s : State) : Host.Outcome State Fault Refusal := .next (s.skipIf (s.reg x != nn))

/-- R116, 5xy0 SE Vx, Vy. -/
def execSeVxVy (x y : Reg) (s : State) : Host.Outcome State Fault Refusal := .next (s.skipIf (s.reg x == s.reg y))

/-- R117, 9xy0 SNE Vx, Vy. -/
def execSneVxVy (x y : Reg) (s : State) : Host.Outcome State Fault Refusal := .next (s.skipIf (s.reg x != s.reg y))

/-- R118, Bnnn JP V0, nnn: the sum is not reduced mod 4096. -/
def execJpV0Nnn (nnn : Addr12) (s : State) : Host.Outcome State Fault Refusal :=
  .next (s.setPc (zextByte (s.reg 0#4) + zextAddr nnn))

end Sys2Proof.Machine
end

