-- ==== Sys2Proof/Machine/Display.lean ====
section
/-! DEFINITION. The framebuffer's pixels, the collision detector and the display instructions (44_display.md). -/

namespace Sys2Proof.Machine

/-- fb[x, y] (R180): column x of 0..63, row y of 0..31. -/
def Framebuffer.pixel (fb : Framebuffer) (x : Fin 64) (y : Fin 32) : Bool := fb[y.val].getLsbD x.val

/-- fb[x, y] <- not fb[x, y] (R182). -/
def Framebuffer.toggle (fb : Framebuffer) (x : Fin 64) (y : Fin 32) : Framebuffer :=
  fb.set y.val (fb[y.val] ^^^ BitVec.twoPow 64 x.val)

/-- A column reduced mod 64 (R182). -/
def wrapColumn (n : Nat) : Fin 64 := ⟨n % 64, Nat.mod_lt n (by decide)⟩

/-- A row reduced mod 32 (R182). -/
def wrapRow (n : Nat) : Fin 32 := ⟨n % 32, Nat.mod_lt n (by decide)⟩

/-- A framebuffer being drawn on, and the collision output so far (R183). -/
structure Drawing where
  fb : Framebuffer
  collision : Bool
  deriving DecidableEq, Repr

/-- One toggle and what the collision detector reports of it: a collision exactly when the old pixel was lit (R183). -/
def Drawing.toggle (d : Drawing) (x : Fin 64) (y : Fin 32) : Drawing where
  fb := Framebuffer.toggle d.fb x y
  collision := d.collision || Framebuffer.pixel d.fb x y

/-- Bit b of a sprite row, counted from the left, most significant first: row[7 - b] (R182). -/
def spriteBit (row : Byte) (b : Nat) : Bool := row.getLsbD (7 - b)

/-- The inner loop of R182: the eight pixels of sprite row r. -/
def Drawing.drawRow (d : Drawing) (sx sy : Byte) (r : Nat) (row : Byte) : Drawing :=
  (List.range 8).foldl
    (fun d b => if spriteBit row b then d.toggle (wrapColumn (sx.toNat + b)) (wrapRow (sy.toNat + r)) else d) d

/-- The outer loop of R182: rows 0..n-1, read at I + r. -/
def State.drawSprite (s : State) (sx sy : Byte) (n : Nibble) : Drawing :=
  (List.range n.toNat).foldl (fun d r => d.drawRow sx sy r (s.readByte (s.dataAddr r))) ⟨s.fb, false⟩

/-- R181, 00E0 CLS. -/
def execCls (s : State) : Host.Outcome State Fault Refusal := .next (s.setFb (Vector.replicate 32 0#64))

/-- R182, Dxyn DRW Vx, Vy, n: the coordinates are read first, VF is written last. -/
def execDrwVxVyN (x y : Reg) (n : Nibble) (s : State) : Host.Outcome State Fault Refusal :=
  let drawing := s.drawSprite (s.reg x) (s.reg y) n
  .next ((s.setFb drawing.fb).setReg 0xF#4 (flagByte drawing.collision))

end Sys2Proof.Machine
end

