-- ==== Sys2Proof/Machine/IndexMemory.lean ====
section
/-! DEFINITION. The index register and memory instructions (43_index_memory.md). I changes only in the first three (R27, R166). -/

namespace Sys2Proof.Machine

/-- R160, Annn LD I, nnn. -/
def execLdINnn (nnn : Addr12) (s : State) : Host.Outcome State Fault Refusal := .next (s.setIndex (zextAddr nnn))

/-- t of R161: (I + zext_16(V[x])) mod 2^16. -/
def State.indexSum (s : State) (x : Reg) : Word := s.index + zextByte (s.reg x)

/-- Fx1E under REFERENCE_DOUBLE_ADD (R161): u = I + t exactly, a fault when u does not fit 16 bits. -/
def State.doubleAddIndex (s : State) (x : Reg) : State :=
  if s.index.toNat + (s.indexSum x).toNat < 2 ^ 16 then s.setIndex (s.index + s.indexSum x)
  else s.raiseInstr .indexOverflow (.addIVx x)

/-- R161, Fx1E ADD I, Vx, under both values of FX1E_MODE. -/
def execAddIVx (x : Reg) (s : State) : Host.Outcome State Fault Refusal :=
  .next (match s.config.fx1eMode with
    | .singleAdd => s.setIndex (s.indexSum x)
    | .referenceDoubleAdd => s.doubleAddIndex x)

/-- R162, Fx29 LD F, Vx: I <- zext_16(V[x]) * 5, at most 1275, not masked. -/
def execLdFVx (x : Reg) (s : State) : Host.Outcome State Fault Refusal := .next (s.setIndex (zextByte (s.reg x) * 5))

/-- A store of bytes at I by the instruction i: the font check of every target first, then the writes (R55, R163, R164). -/
def State.storeAtIndex (s : State) (i : Instr) (bytes : List Byte) : State :=
  if storesIntoFont (s.dataAddr 0) bytes.length then s.raiseInstr .fontRegionWrite i
  else s.writeBytes (s.dataAddr 0) bytes

/-- R163, Fx33 LD B, Vx. -/
def execLdBVx (x : Reg) (s : State) : Host.Outcome State Fault Refusal :=
  .next (s.storeAtIndex (.ldBVx x) (decimalDigits (s.reg x)))

/-- R164, Fx55 LD [I], Vx. -/
def execLdMemIVx (x : Reg) (s : State) : Host.Outcome State Fault Refusal :=
  .next (s.storeAtIndex (.ldMemIVx x) (s.regsUpTo x))

/-- R165, Fx65 LD Vx, [I]: reads are never checked. -/
def execLdVxMemI (x : Reg) (s : State) : Host.Outcome State Fault Refusal := .next (s.loadRegsUpTo x)

end Sys2Proof.Machine
end

