-- ==== Sys2Proof/Machine/TimersKeys.lean ====
section
/-! DEFINITION. The key and timer instructions (45_timers_keys.md R190 to R195). -/

namespace Sys2Proof.Machine

/-- A skip on the level of key[V[x]], or the fault of the instruction i when V[x] > 15 (R190, R191). -/
def State.skipOnKey (s : State) (i : Instr) (x : Reg) (level : Bool) : State :=
  if h : (s.reg x).toNat < 16 then s.skipIf (s.keyDown ⟨(s.reg x).toNat, h⟩ == level)
  else s.raiseInstr .keyIndexOutOfRange i

/-- R190, Ex9E SKP Vx. -/
def execSkpVx (x : Reg) (s : State) : Host.Outcome State Fault Refusal := .next (s.skipOnKey (.skpVx x) x true)

/-- R191, ExA1 SKNP Vx. -/
def execSknpVx (x : Reg) (s : State) : Host.Outcome State Fault Refusal := .next (s.skipOnKey (.sknpVx x) x false)

/-- R192, Fx07 LD Vx, DT. -/
def execLdVxDt (x : Reg) (s : State) : Host.Outcome State Fault Refusal := .next (s.setReg x s.dt)

/-- R193, Fx0A LD Vx, K: the lowest pressed key, or pc back to A so that the next STEP runs this instruction again. -/
def execLdVxK (x : Reg) (s : State) : Host.Outcome State Fault Refusal :=
  .next (match s.lowestKey with
    | some k => s.setReg x (BitVec.ofNat 8 k.val)
    | none => s.setPc (s.pc - 2))

/-- R194, Fx15 LD DT, Vx. -/
def execLdDtVx (x : Reg) (s : State) : Host.Outcome State Fault Refusal := .next (s.setDt (s.reg x))

/-- R195, Fx18 LD ST, Vx. -/
def execLdStVx (x : Reg) (s : State) : Host.Outcome State Fault Refusal := .next (s.setSt (s.reg x))

end Sys2Proof.Machine
end

