-- ==== Sys2Proof/Machine/Step.lean ====
section
/-! DEFINITION. The STEP command (40_cycle_and_ports.md R92 to R97), and how the host places a word where the next STEP fetches. -/

namespace Sys2Proof.Machine

/-- Decode and execute the fetched word op, with pc already A + 2 in s (R96, R212). -/
def State.runWord (s : State) (op : Word) : Host.Outcome State Fault Refusal :=
  match decode op with
  | .error _ => .next (s.raise .unimplemented (s.pc - 2) op)
  | .ok i => exec i s

/-- STEP (R96), with the byte that the rnd input holds in s, or a free one (log 2): nothing while faulted (R92), the fetch range check (R94), the fetch (R93), pc + 2 (R95), decode and execute. -/
def step (s : State) : Host.Outcome State Fault Refusal :=
  match s.fault with
  | some _ => .next s
  | none =>
    if s.pc.toNat ≤ lastFetch then s.advance.runWord (s.fetchWord s.pc)
    else .next (s.raise .pcOutOfRange s.pc 0#16)

/-- A state whose next STEP fetches: no latched fault, and pc at the program base where it was out of range. -/
def State.readyToFetch (s : State) : State :=
  { s with fault := none, pc := if s.pc.toNat ≤ lastFetch then s.pc else BitVec.ofNat 16 progBase }

/-- The word w placed big-endian at pc, so that the very next STEP runs it; it stands for a LOAD from outside (log 10). -/
def State.withFetchWord (s : State) (nbits w : Nat) : State :=
  s.readyToFetch.writeBytes s.readyToFetch.pc.toNat (wordBytes (BitVec.ofNat 16 (w % 2 ^ nbits)))

end Sys2Proof.Machine
end

