-- ==== Sys2Proof/Machine/Commands.lean ====
section
/-! DEFINITION. The host command port (40_cycle_and_ports.md R90 to R102; TICK and SET_KEY of 45_timers_keys.md; RESET of
70_reset_and_hazards.md): what each command does to the state and what it answers. -/

namespace Sys2Proof.Machine

/-- The commands of R90 with their inputs: STEP takes the byte rnd[7:0], which the host chooses (R37, R100, D17). -/
inductive Command where
  | reset
  | load (bytes : List Byte)
  | setKey (index : Nat) (pressed : Bool)
  | step (rnd : Byte)
  | tick
  | readFb
  deriving DecidableEq, Repr

/-- RESET (R240): every piece of the block's state to its reset value. The parameters stay, and so does the count of draws, so that
the random bytes after a RESET are free again (log 2, log 3). -/
def State.doReset (s : State) : State := { State.resetWith s.config with draws := s.draws }

/-- LOAD (R98). -/
def State.doLoad (s : State) (bytes : List Byte) : State :=
  if bytes.length ≤ maxImage then s.writeBytes progBase bytes
  else s.raise .loadOutOfBounds s.pc (BitVec.ofNat 16 bytes.length)

/-- SET_KEY (R199). -/
def State.doSetKey (s : State) (index : Nat) (pressed : Bool) : State :=
  if h : index < 16 then s.setKey ⟨index, h⟩ pressed
  else s.raise .keyIndexOutOfRange s.pc (BitVec.ofNat 16 index)

/-- A timer one tick later; it stays at 0 (R196). -/
def tickDown (b : Byte) : Byte := if b = 0#8 then 0#8 else b - 1#8

/-- TICK (R196). -/
def State.doTick (s : State) : State := (s.setDt (tickDown s.dt)).setSt (tickDown s.st)

/-- STEP(rnd) (R96): the cycle of `step` with the host's byte at the rnd input, which holds no value after the command (R37). -/
def stepWith (rnd : Byte) (s : State) : Host.Outcome State Fault Refusal :=
  match Sys2Proof.Machine.step (s.setRnd (some rnd)) with
  | .next t => .next (t.setRnd s.rnd)
  | .fault f => .fault f
  | .refused r => .refused r

/-- What a command does to the state. -/
def runCommand (c : Command) (s : State) : Host.Outcome State Fault Refusal :=
  match c with
  | .reset => .next s.doReset
  | .load bytes => .next (s.doLoad bytes)
  | .setKey index pressed => .next (s.doSetKey index pressed)
  | .step rnd => stepWith rnd s
  | .tick => .next s.doTick
  | .readFb => .next s

/-- A finite, host-chosen sequence of commands (R91, R101). -/
def runCommands (cs : List Command) (s : State) : Host.Outcome State Fault Refusal :=
  match cs with
  | [] => .next s
  | c :: rest =>
    match runCommand c s with
    | .next t => runCommands rest t
    | .fault f => .fault f
    | .refused r => .refused r

/-- The 2048 framebuffer bits in row-major order: element y*64 + x is fb[x, y] (R99, R180). -/
def State.framebufferBits (s : State) : List Bool :=
  (List.finRange 32).flatMap (fun y => (List.finRange 64).map (fun x => Framebuffer.pixel s.fb x y))

/-- What a command answers (R37, R90). -/
structure Response where
  /-- The fault latch after the command (R36, R92, R97). -/
  status : Option FaultRecord
  /-- Asserted for exactly the TICK on which ST goes from 1 to 0 (R197). -/
  soundStop : Bool
  /-- The level ST != 0 after the command (R198). -/
  soundActive : Bool
  /-- The framebuffer bits, from READ_FB only (R99). -/
  fb : Option (List Bool)
  deriving DecidableEq, Repr

/-- What the command c answers when it takes the state from s to t. -/
def response (c : Command) (s t : State) : Response where
  status := t.fault
  soundStop := c == .tick && s.st == 1#8
  soundActive := t.st != 0#8
  fb := if c = .readFb then some t.framebufferBits else none

end Sys2Proof.Machine
end

