-- ==== Sys2Proof/Safety.lean ====
section
/-! DEFINITION. The terms claims are stated in: the parts of the state and what "changes no state except" means (00_scope.md R11),
the invariant of the machine, and a clean end of a run (40_cycle_and_ports.md R101). -/

namespace Sys2Proof.Machine

/-- The parts of the state: every register, stack entry, key, pixel and memory byte is a part of its own. -/
inductive Part where
  | reg (x : Reg)
  | pc
  | index
  | stackEntry (j : Fin 16)
  | sp
  | dt
  | st
  | key (k : Fin 16)
  | pixel (x : Fin 64) (y : Fin 32)
  | byte (a : Fin 4096)
  | fault
  | config
  | rnd
  | draws
  deriving DecidableEq, Repr

/-- The part q holds the same in t as in s. -/
def Part.same (q : Part) (s t : State) : Prop :=
  match q with
  | .reg x => t.reg x = s.reg x
  | .pc => t.pc = s.pc
  | .index => t.index = s.index
  | .stackEntry j => t.stack[j.val] = s.stack[j.val]
  | .sp => t.sp = s.sp
  | .dt => t.dt = s.dt
  | .st => t.st = s.st
  | .key k => t.key[k.val] = s.key[k.val]
  | .pixel x y => Framebuffer.pixel t.fb x y = Framebuffer.pixel s.fb x y
  | .byte a => t.readByte a.val = s.readByte a.val
  | .fault => t.fault = s.fault
  | .config => t.config = s.config
  | .rnd => t.rnd = s.rnd
  | .draws => t.draws = s.draws

/-- From s to t only parts that `may` allows have changed (R11: "A rule changes no state except what it writes"). -/
def ChangesOnly (s t : State) (may : Part → Prop) : Prop := ∀ q : Part, ¬ may q → q.same s t

/-- The memory byte `a mod 4096`, as a part (R52). -/
def Part.atAddress (a : Nat) : Part := .byte ⟨a % 4096, Nat.mod_lt a (by decide)⟩

/-- The pixel (px, py) lies under a set bit of the n-row sprite at I drawn from (V[x], V[y]) (R182). -/
def spriteCovers (s : State) (x y : Reg) (n : Nibble) (px : Fin 64) (py : Fin 32) : Prop :=
  ∃ r < n.toNat, ∃ b < 8,
    (s.readByte ((s.index.toNat + r) % 4096)).getLsbD (7 - b) = true ∧
    px.val = ((s.reg x).toNat + b) % 64 ∧ py.val = ((s.reg y).toNat + r) % 32

/-- What every command keeps. -/
structure Inv (s : State) : Prop where
  /-- Memory is in its canonical form (log 8). -/
  memory : Memory.wf s.config.font s.mem = true
  /-- The font region holds FONT (R55, R56). -/
  font : ∀ a : Fin 80, s.readByte a.val = s.config.font[a.val]
  /-- The latch's kind is its cause's kind (R211). -/
  latch : ∀ f ∈ s.fault, f.kind = f.cause.kind
  /-- The largest pc an instruction can produce (R26). -/
  pc : s.pc.toNat ≤ 0x10FE
  /-- A stack entry is 0 or a fetch address + 2 (R28, R111). -/
  stack : ∀ j : Fin 16, s.stack[j.val].toNat ≤ 0x1000
  /-- The rnd input holds no value between commands (R37). -/
  rnd : s.rnd = none

/-- The run ends cleanly here: no fault, and the next STEP would fetch a jump to itself (R101). -/
def State.cleanEnd (s : State) : Prop :=
  s.fault = none ∧ s.pc.toNat ≤ lastFetch ∧ ∃ nnn : Addr12, s.fetchWord s.pc = 0x1#4 ++ nnn ∧ nnn.toNat = s.pc.toNat

end Sys2Proof.Machine
end

