-- ==== Sys2Proof/Certificates/Slice0/Obligations.lean ====
section
/-! DEFINITION. The statements for the provers. In the statements about `exec`, s is the state an instruction executes in: the fetch
has made pc the instruction's address plus 2 (R95), so A is s.pc - 2. A fault clause says what the latch holds as
`s.fault.getD r`: the record r when it was none, and the first fault otherwise (R214). -/

open Sys2Proof Sys2Proof.Machine

/-! ## Encoding -/

/-- Words written out from R76, one for each format of R72 and some illegal ones. -/
def Obligations.SampleWordsDecode : Prop :=
  decode 0b0000_0000_0000_0000#16 = .ok .nop ∧
  decode 0b0000_0000_1110_0000#16 = .ok .cls ∧
  decode 0b0000_0000_1110_1110#16 = .ok .ret ∧
  decode 0b0001_0010_0011_0100#16 = .ok (.jpNnn 0x234) ∧
  decode 0b0010_1010_1011_1100#16 = .ok (.callNnn 0xABC) ∧
  decode 0b0011_0100_1000_0000#16 = .ok (.seVxNn 0x4 0x80) ∧
  decode 0b1000_0001_0010_0101#16 = .ok (.subVxVy 0x1 0x2) ∧
  decode 0b1101_0000_0001_0010#16 = .ok (.drwVxVyN 0x0 0x1 0x2) ∧
  decode 0b1110_0101_1001_1110#16 = .ok (.skpVx 0x5) ∧
  decode 0b1111_0111_0011_0011#16 = .ok (.ldBVx 0x7) ∧
  decode 0b0000_0001_0010_0011#16 = .error (.unrecognized 0x0123) ∧
  decode 0b0101_0001_0010_0001#16 = .error (.unrecognized 0x5121) ∧
  decode 0b1000_0000_0000_1000#16 = .error (.unrecognized 0x8008)

/-- Decoding an encoded instruction gives it back, for every instruction and every operand value. -/
def Obligations.DecodeOfEncode : Prop := ∀ i : Instr, decode (encode i) = .ok i

/-- A word that decodes has no other spelling: encoding what it decodes to gives the word back. -/
def Obligations.EncodeOfDecode : Prop := ∀ (op : Word) (i : Instr), decode op = .ok i → encode i = op

/-- The decoder refuses exactly the words of R77's list, each by its own name. -/
def Obligations.DecodeRefusesExactlyIllegalWords : Prop :=
  ∀ op : Word,
    (legalWord op = true ↔ ∃ i, decode op = .ok i) ∧
    (legalWord op = false ↔ decode op = .error (.unrecognized op))

/-- (op AND mask) = match picks exactly the row of the instruction op decodes to, and no row where op decodes to none (R76). -/
def Obligations.OpcodeRowSelectsDecodedWord : Prop :=
  ∀ (op : Word) (j : Instr), op &&& j.row.mask = j.row.bits ↔ ∃ i, decode op = .ok i ∧ j.row = i.row

/-! ## The STEP cycle -/

/-- A step fetches the big-endian word at pc, adds 2 to pc and executes the decoded instruction (R93, R95, R96). The command STEP does
so with the host's byte at the rnd input, which holds no value after it (R37, R90). -/
def Obligations.StepRunsDecodedInstruction : Prop :=
  ∀ (s : State) (i : Instr), s.fault = none → s.pc.toNat ≤ 0xFFE →
    decode (s.readByte s.pc.toNat ++ s.readByte (s.pc.toNat + 1)) = .ok i →
    step s = exec i { s with pc := s.pc + 2 } ∧
    ∀ r : Byte, ∃ t, exec i { s with pc := s.pc + 2, rnd := some r } = .next t ∧
      runCommand (.step r) s = .next { t with rnd := s.rnd }

/-- The command STEP with any byte of the host's, where an RND stands at pc, writes that byte AND nn (R90, R96, R100, R143). -/
def Obligations.HostChoosesRandomByte : Prop :=
  ∀ (s : State) (x : Reg) (nn r : Byte), s.fault = none → s.pc.toNat ≤ 0xFFE →
    s.readByte s.pc.toNat ++ s.readByte (s.pc.toNat + 1) = 0xC#4 ++ x ++ nn →
    ∃ t, runCommand (.step r) s = .next t ∧ t.reg x = r &&& nn ∧ t.pc = s.pc + 2 ∧
      ChangesOnly s t (fun q => q = .reg x ∨ q = .pc)

/-- `step`, to which no byte is given, is the command STEP with the free byte of this draw, up to the count of draws. The free byte and
the count are the model's own (log 2). -/
def Obligations.StepIsCommandWithFreeByte : Prop :=
  ∀ s : State, s.rnd = none →
    ∃ t, runCommand (.step (Config.rnd s.draws)) s = .next t ∧ t.draws = s.draws ∧
      (step s = .next t ∨ step s = .next { t with draws := s.draws + 1 })

/-- The host's placing of a word makes the very next step run it. The placing is the model's own (log 10). -/
def Obligations.PlacedWordRunsNext : Prop :=
  ∀ (s : State) (op : Word) (i : Instr), decode op = .ok i →
    ∃ t, step (s.withFetchWord 16 op.toNat) = exec i t ∧
      t.fault = none ∧ t.pc = (s.withFetchWord 16 op.toNat).pc + 2 ∧
      ChangesOnly s t (fun q => q = .pc ∨ q = .fault ∨ q = .atAddress (t.pc.toNat - 2) ∨ q = .atAddress (t.pc.toNat - 1))

/-- A pc above 0xFFE faults at the fetch with word 0 and stays (R94). -/
def Obligations.FetchOutOfRangeFaults : Prop :=
  ∀ s : State, s.fault = none → 0xFFE < s.pc.toNat →
    ∃ t, step s = .next t ∧ (∀ r, runCommand (.step r) s = .next t) ∧
      t.fault = some ⟨.machineFault, .pcOutOfRange, s.pc, 0x0000#16⟩ ∧
      ChangesOnly s t (fun q => q = .fault)

/-- An illegal word raises UnimplementedOpcode with the word and its address (R212). -/
def Obligations.IllegalWordFaults : Prop :=
  ∀ s : State, s.fault = none → s.pc.toNat ≤ 0xFFE →
    legalWord (s.readByte s.pc.toNat ++ s.readByte (s.pc.toNat + 1)) = false →
    ∃ t, step s = .next t ∧ (∀ r, runCommand (.step r) s = .next t) ∧
      t.fault = some ⟨.unimplementedOpcode, .unimplemented, s.pc, s.readByte s.pc.toNat ++ s.readByte (s.pc.toNat + 1)⟩ ∧
      t.pc = s.pc + 2 ∧ ChangesOnly s t (fun q => q = .pc ∨ q = .fault)

/-- A STEP while the latch is set changes nothing and answers the latched fault; only RESET leaves the faulted state (R92). -/
def Obligations.FaultedStepChangesNothing : Prop :=
  ∀ (s : State) (f : FaultRecord), s.fault = some f →
    step s = .next s ∧ (∀ r : Byte, runCommand (.step r) s = .next s ∧ (response (.step r) s s).status = some f) ∧
    ∀ (c : Command) (t : State), runCommand c s = .next t → (t.fault = none ↔ c = .reset)

/-- No step and no command stops: every word has a meaning or a fault that is a state (93_implementation_defined.md section 1). -/
def Obligations.EveryCommandAnswersNextState : Prop :=
  ∀ (c : Command) (s : State), ∃ t, runCommand c s = .next t

/-- A run that has ended cleanly stays where it is: a self-jump is a fixed point of STEP (R101, which the spec marks as derived). -/
def Obligations.SelfJumpIsFixedPoint : Prop := ∀ s : State, s.cleanEnd →
  step s = .next s ∧ ∀ r : Byte, runCommand (.step r) s = .next s

/-- A byte pair stored by Fx55 where the next instruction stands is the word the next STEP fetches (R65 and R246,
which the spec marks as derived). -/
def Obligations.NextFetchSeesStoredBytes : Prop :=
  ∀ (s t : State) (x : Reg) (k : Nat), s.fault = none → exec (.ldMemIVx x) s = .next t → t.fault = none →
    k < x.toNat → t.pc.toNat ≤ 0xFFE → (s.index.toNat + k) % 4096 = t.pc.toNat →
    t.fetchWord t.pc = s.reg (BitVec.ofNat 4 k) ++ s.reg (BitVec.ofNat 4 (k + 1))

/-! ## Control flow -/

/-- R110: only the all-zero word is a NOP, and every other 0nnn but 00E0 and 00EE is illegal. -/
def Obligations.NopChangesNothing : Prop :=
  (∀ op : Word, decode op = .ok .nop ↔ op = 0x0000#16) ∧
  (∀ nnn : Addr12, nnn ≠ 0x000 → nnn ≠ 0x0E0 → nnn ≠ 0x0EE →
    decode (0x0#4 ++ nnn) = .error (.unrecognized (0x0#4 ++ nnn))) ∧
  ∀ s : State, exec .nop s = .next s

/-- R111, both with an entry to pop and without. -/
def Obligations.ReturnPopsPc : Prop :=
  (∀ op : Word, decode op = .ok .ret ↔ op = 0x00EE#16) ∧
  (∀ (s : State) (j : Fin 16), s.sp.val = j.val + 1 →
    ∃ t, exec .ret s = .next t ∧ t.sp.val = j.val ∧ t.pc = s.stack[j.val] ∧
      ChangesOnly s t (fun q => q = .sp ∨ q = .pc)) ∧
  (∀ s : State, s.sp.val = 0 →
    ∃ t, exec .ret s = .next t ∧
      t.fault = some (s.fault.getD ⟨.machineFault, .stackUnderflow, s.pc - 2, 0x00EE#16⟩) ∧
      ChangesOnly s t (fun q => q = .fault))

/-- R112: the jump, and the fault of the next STEP after a jump to 0xFFF. -/
def Obligations.JumpSetsPc : Prop :=
  ∀ nnn : Addr12, decode (0x1#4 ++ nnn) = .ok (.jpNnn nnn) ∧
    ∀ s : State, ∃ t, exec (.jpNnn nnn) s = .next t ∧ t.pc.toNat = nnn.toNat ∧ ChangesOnly s t (fun q => q = .pc) ∧
      (s.fault = none → 0xFFE < nnn.toNat →
        ∃ u, step t = .next u ∧ u.fault = some ⟨.machineFault, .pcOutOfRange, t.pc, 0x0000#16⟩)

/-- R113, both with a free slot and without. -/
def Obligations.CallPushesReturnAddress : Prop :=
  ∀ nnn : Addr12, decode (0x2#4 ++ nnn) = .ok (.callNnn nnn) ∧
    (∀ (s : State) (j : Fin 16), s.sp.val = j.val →
      ∃ t, exec (.callNnn nnn) s = .next t ∧ t.stack[j.val] = s.pc ∧ t.sp.val = j.val + 1 ∧ t.pc.toNat = nnn.toNat ∧
        ChangesOnly s t (fun q => q = .stackEntry j ∨ q = .sp ∨ q = .pc)) ∧
    (∀ s : State, s.sp.val = 16 →
      ∃ t, exec (.callNnn nnn) s = .next t ∧
        t.fault = some (s.fault.getD ⟨.machineFault, .stackOverflow, s.pc - 2, 0x2#4 ++ nnn⟩) ∧
        ChangesOnly s t (fun q => q = .fault))

/-- A call and then a return, wherever pc has gone between, restores the pushed pc and sp (R111, R113, and R120, which
the spec marks as derived). -/
def Obligations.ReturnAfterCallRestoresPc : Prop :=
  ∀ (s t : State) (nnn : Addr12) (p : Word), s.sp.val < 16 → exec (.callNnn nnn) s = .next t →
    ∃ u, exec .ret { t with pc := p } = .next u ∧ u.pc = s.pc ∧ u.sp = s.sp

/-- R114 and R115: a skip adds exactly 2 to pc when V[x] = nn, or when V[x] is not nn. -/
def Obligations.ImmediateSkips : Prop :=
  ∀ (x : Reg) (nn : Byte),
    decode (0x3#4 ++ x ++ nn) = .ok (.seVxNn x nn) ∧ decode (0x4#4 ++ x ++ nn) = .ok (.sneVxNn x nn) ∧
    ∀ s : State,
      (∃ t, exec (.seVxNn x nn) s = .next t ∧ (s.reg x = nn → t.pc = s.pc + 2) ∧ (s.reg x ≠ nn → t.pc = s.pc) ∧
        ChangesOnly s t (fun q => q = .pc)) ∧
      (∃ t, exec (.sneVxNn x nn) s = .next t ∧ (s.reg x ≠ nn → t.pc = s.pc + 2) ∧ (s.reg x = nn → t.pc = s.pc) ∧
        ChangesOnly s t (fun q => q = .pc))

/-- R116 and R117: the same on V[x] and V[y]; a low nibble that is not 0 is illegal. -/
def Obligations.RegisterSkips : Prop :=
  ∀ x y : Reg,
    decode (0x5#4 ++ x ++ y ++ 0x0#4) = .ok (.seVxVy x y) ∧ decode (0x9#4 ++ x ++ y ++ 0x0#4) = .ok (.sneVxVy x y) ∧
    (∀ n : Nibble, n ≠ 0x0#4 →
      decode (0x5#4 ++ x ++ y ++ n) = .error (.unrecognized (0x5#4 ++ x ++ y ++ n)) ∧
      decode (0x9#4 ++ x ++ y ++ n) = .error (.unrecognized (0x9#4 ++ x ++ y ++ n))) ∧
    ∀ s : State,
      (∃ t, exec (.seVxVy x y) s = .next t ∧ (s.reg x = s.reg y → t.pc = s.pc + 2) ∧
        (s.reg x ≠ s.reg y → t.pc = s.pc) ∧ ChangesOnly s t (fun q => q = .pc)) ∧
      (∃ t, exec (.sneVxVy x y) s = .next t ∧ (s.reg x ≠ s.reg y → t.pc = s.pc + 2) ∧
        (s.reg x = s.reg y → t.pc = s.pc) ∧ ChangesOnly s t (fun q => q = .pc))

/-- R118: the 16-bit sum of V0 and nnn, not reduced mod 4096, and the fault of the next STEP when it is above 0xFFE. -/
def Obligations.OffsetJumpAddsV0 : Prop :=
  ∀ nnn : Addr12, decode (0xB#4 ++ nnn) = .ok (.jpV0Nnn nnn) ∧
    ∀ s : State, ∃ t, exec (.jpV0Nnn nnn) s = .next t ∧ t.pc.toNat = (s.reg 0#4).toNat + nnn.toNat ∧
      ChangesOnly s t (fun q => q = .pc) ∧
      (s.fault = none → 0xFFE < (s.reg 0#4).toNat + nnn.toNat →
        ∃ u, step t = .next u ∧ u.fault = some ⟨.machineFault, .pcOutOfRange, t.pc, 0x0000#16⟩)

/-! ## ALU and registers -/

/-- R132 and R133: the immediate forms write V[x] only. -/
def Obligations.ImmediateLoadAndAdd : Prop :=
  ∀ (x : Reg) (nn : Byte),
    decode (0x6#4 ++ x ++ nn) = .ok (.ldVxNn x nn) ∧ decode (0x7#4 ++ x ++ nn) = .ok (.addVxNn x nn) ∧
    ∀ s : State,
      (∃ t, exec (.ldVxNn x nn) s = .next t ∧ t.reg x = nn ∧ ChangesOnly s t (fun q => q = .reg x)) ∧
      (∃ t, exec (.addVxNn x nn) s = .next t ∧ (t.reg x).toNat = ((s.reg x).toNat + nn.toNat) % 256 ∧
        ChangesOnly s t (fun q => q = .reg x))

/-- R134 to R137: copy, OR, AND and XOR write V[x] only, and no flag. -/
def Obligations.CopyAndLogic : Prop :=
  ∀ x y : Reg,
    decode (0x8#4 ++ x ++ y ++ 0x0#4) = .ok (.ldVxVy x y) ∧ decode (0x8#4 ++ x ++ y ++ 0x1#4) = .ok (.orVxVy x y) ∧
    decode (0x8#4 ++ x ++ y ++ 0x2#4) = .ok (.andVxVy x y) ∧ decode (0x8#4 ++ x ++ y ++ 0x3#4) = .ok (.xorVxVy x y) ∧
    ∀ s : State,
      (∃ t, exec (.ldVxVy x y) s = .next t ∧ t.reg x = s.reg y ∧ ChangesOnly s t (fun q => q = .reg x)) ∧
      (∃ t, exec (.orVxVy x y) s = .next t ∧ t.reg x = s.reg x ||| s.reg y ∧ ChangesOnly s t (fun q => q = .reg x)) ∧
      (∃ t, exec (.andVxVy x y) s = .next t ∧ t.reg x = s.reg x &&& s.reg y ∧ ChangesOnly s t (fun q => q = .reg x)) ∧
      (∃ t, exec (.xorVxVy x y) s = .next t ∧ t.reg x = s.reg x ^^^ s.reg y ∧ ChangesOnly s t (fun q => q = .reg x))

/-- R138, with R131's order: the flag is written last, so VF holds the carry also when x = F. -/
def Obligations.AddSetsCarry : Prop :=
  ∀ x y : Reg, decode (0x8#4 ++ x ++ y ++ 0x4#4) = .ok (.addVxVy x y) ∧
    ∀ s : State, ∃ t, exec (.addVxVy x y) s = .next t ∧
      (x ≠ 0xF#4 → (t.reg x).toNat = ((s.reg x).toNat + (s.reg y).toNat) % 256) ∧
      t.reg 0xF#4 = (if 256 ≤ (s.reg x).toNat + (s.reg y).toNat then 1#8 else 0#8) ∧
      ChangesOnly s t (fun q => q = .reg x ∨ q = .reg 0xF#4)

/-- R139 and R141: the flag is NOT borrow, written last. -/
def Obligations.SubtractSetsNotBorrow : Prop :=
  ∀ x y : Reg,
    decode (0x8#4 ++ x ++ y ++ 0x5#4) = .ok (.subVxVy x y) ∧ decode (0x8#4 ++ x ++ y ++ 0x7#4) = .ok (.subnVxVy x y) ∧
    ∀ s : State,
      (∃ t, exec (.subVxVy x y) s = .next t ∧
        (x ≠ 0xF#4 → ((t.reg x).toNat : Int) = (((s.reg x).toNat : Int) - (s.reg y).toNat) % 256) ∧
        t.reg 0xF#4 = (if (s.reg y).toNat ≤ (s.reg x).toNat then 1#8 else 0#8) ∧
        ChangesOnly s t (fun q => q = .reg x ∨ q = .reg 0xF#4)) ∧
      (∃ t, exec (.subnVxVy x y) s = .next t ∧
        (x ≠ 0xF#4 → ((t.reg x).toNat : Int) = (((s.reg y).toNat : Int) - (s.reg x).toNat) % 256) ∧
        t.reg 0xF#4 = (if (s.reg x).toNat ≤ (s.reg y).toNat then 1#8 else 0#8) ∧
        ChangesOnly s t (fun q => q = .reg x ∨ q = .reg 0xF#4))

/-- R140 and R142, under both values of SHIFT_SOURCE: the flag is the bit shifted out, written last. -/
def Obligations.ShiftsSetShiftedOutBit : Prop :=
  ∀ x y : Reg,
    decode (0x8#4 ++ x ++ y ++ 0x6#4) = .ok (.shrVxVy x y) ∧ decode (0x8#4 ++ x ++ y ++ 0xE#4) = .ok (.shlVxVy x y) ∧
    ∀ (s : State) (b : Byte),
      (s.config.shiftSource = .vx ∧ b = s.reg x ∨ s.config.shiftSource = .vy ∧ b = s.reg y) →
      (∃ t, exec (.shrVxVy x y) s = .next t ∧
        (x ≠ 0xF#4 → (t.reg x).toNat = b.toNat / 2) ∧ (t.reg 0xF#4).toNat = b.toNat % 2 ∧
        ChangesOnly s t (fun q => q = .reg x ∨ q = .reg 0xF#4)) ∧
      (∃ t, exec (.shlVxVy x y) s = .next t ∧
        (x ≠ 0xF#4 → (t.reg x).toNat = b.toNat * 2 % 256) ∧ (t.reg 0xF#4).toNat = b.toNat / 128 ∧
        ChangesOnly s t (fun q => q = .reg x ∨ q = .reg 0xF#4))

/-- R143: rnd AND nn, for every byte r that the rnd input holds. Second, where the host supplies none (the model's own case, log 2), the
same with the free byte of this draw, and the draw counter advances. -/
def Obligations.RandomIsMasked : Prop :=
  ∀ (x : Reg) (nn : Byte), decode (0xC#4 ++ x ++ nn) = .ok (.rndVxNn x nn) ∧
    (∀ (s : State) (r : Byte), s.rnd = some r → ∃ t, exec (.rndVxNn x nn) s = .next t ∧ t.reg x = r &&& nn ∧
      ChangesOnly s t (fun q => q = .reg x)) ∧
    (∀ s : State, s.rnd = none → ∃ t, exec (.rndVxNn x nn) s = .next t ∧ t.reg x = Config.rnd s.draws &&& nn ∧
      t.draws = s.draws + 1 ∧ ChangesOnly s t (fun q => q = .reg x ∨ q = .draws))

/-! ## Index register and memory -/

/-- R160 and R162: I <- nnn, and I <- V[x] * 5, not masked. -/
def Obligations.IndexLoads : Prop :=
  (∀ nnn : Addr12, decode (0xA#4 ++ nnn) = .ok (.ldINnn nnn) ∧
    ∀ s : State, ∃ t, exec (.ldINnn nnn) s = .next t ∧ t.index.toNat = nnn.toNat ∧ ChangesOnly s t (fun q => q = .index)) ∧
  (∀ x : Reg, decode (0xF#4 ++ x ++ 0x29#8) = .ok (.ldFVx x) ∧
    ∀ s : State, ∃ t, exec (.ldFVx x) s = .next t ∧ t.index.toNat = (s.reg x).toNat * 5 ∧
      ChangesOnly s t (fun q => q = .index))

/-- R161, under both values of FX1E_MODE, with the fault of the double add. -/
def Obligations.IndexAdd : Prop :=
  ∀ x : Reg, decode (0xF#4 ++ x ++ 0x1E#8) = .ok (.addIVx x) ∧
    ∀ s : State,
      (s.config.fx1eMode = .singleAdd →
        ∃ t, exec (.addIVx x) s = .next t ∧ t.index.toNat = (s.index.toNat + (s.reg x).toNat) % 65536 ∧
          ChangesOnly s t (fun q => q = .index)) ∧
      (s.config.fx1eMode = .referenceDoubleAdd →
        s.index.toNat + (s.index.toNat + (s.reg x).toNat) % 65536 < 65536 →
        ∃ t, exec (.addIVx x) s = .next t ∧
          t.index.toNat = s.index.toNat + (s.index.toNat + (s.reg x).toNat) % 65536 ∧
          ChangesOnly s t (fun q => q = .index)) ∧
      (s.config.fx1eMode = .referenceDoubleAdd →
        65536 ≤ s.index.toNat + (s.index.toNat + (s.reg x).toNat) % 65536 →
        ∃ t, exec (.addIVx x) s = .next t ∧
          t.fault = some (s.fault.getD ⟨.machineFault, .indexOverflow, s.pc - 2, 0xF#4 ++ x ++ 0x1E#8⟩) ∧
          ChangesOnly s t (fun q => q = .fault))

/-- R163: the three digits at I, I + 1 and I + 2 (mod 4096), or the fault with no byte written. -/
def Obligations.DecimalStore : Prop :=
  ∀ x : Reg, decode (0xF#4 ++ x ++ 0x33#8) = .ok (.ldBVx x) ∧
    ∀ s : State,
      ((∀ k < 3, 0x050 ≤ (s.index.toNat + k) % 4096) →
        ∃ t, exec (.ldBVx x) s = .next t ∧
          (t.readByte s.index.toNat).toNat = (s.reg x).toNat / 100 ∧
          (t.readByte (s.index.toNat + 1)).toNat = (s.reg x).toNat / 10 % 10 ∧
          (t.readByte (s.index.toNat + 2)).toNat = (s.reg x).toNat % 10 ∧
          ChangesOnly s t (fun q => ∃ k < 3, q = .atAddress (s.index.toNat + k))) ∧
      ((∃ k < 3, (s.index.toNat + k) % 4096 < 0x050) →
        ∃ t, exec (.ldBVx x) s = .next t ∧
          t.fault = some (s.fault.getD ⟨.machineFault, .fontRegionWrite, s.pc - 2, 0xF#4 ++ x ++ 0x33#8⟩) ∧
          ChangesOnly s t (fun q => q = .fault))

/-- R164: V[0..x] at I, I + 1, ..., I + x (mod 4096), or the fault with no byte written. -/
def Obligations.RegisterStore : Prop :=
  ∀ x : Reg, decode (0xF#4 ++ x ++ 0x55#8) = .ok (.ldMemIVx x) ∧
    ∀ s : State,
      ((∀ k ≤ x.toNat, 0x050 ≤ (s.index.toNat + k) % 4096) →
        ∃ t, exec (.ldMemIVx x) s = .next t ∧
          (∀ r : Reg, r.toNat ≤ x.toNat → t.readByte (s.index.toNat + r.toNat) = s.reg r) ∧
          ChangesOnly s t (fun q => ∃ k ≤ x.toNat, q = .atAddress (s.index.toNat + k))) ∧
      ((∃ k ≤ x.toNat, (s.index.toNat + k) % 4096 < 0x050) →
        ∃ t, exec (.ldMemIVx x) s = .next t ∧
          t.fault = some (s.fault.getD ⟨.machineFault, .fontRegionWrite, s.pc - 2, 0xF#4 ++ x ++ 0x55#8⟩) ∧
          ChangesOnly s t (fun q => q = .fault))

/-- R165: V[0..x] from I, I + 1, ..., I + x (mod 4096), I unchanged. -/
def Obligations.RegisterLoad : Prop :=
  ∀ x : Reg, decode (0xF#4 ++ x ++ 0x65#8) = .ok (.ldVxMemI x) ∧
    ∀ s : State, ∃ t, exec (.ldVxMemI x) s = .next t ∧
      (∀ r : Reg, r.toNat ≤ x.toNat → t.reg r = s.readByte ((s.index.toNat + r.toNat) % 4096)) ∧
      ChangesOnly s t (fun q => ∃ r : Reg, r.toNat ≤ x.toNat ∧ q = .reg r)

/-! ## Display -/

/-- R181. -/
def Obligations.ClearScreen : Prop :=
  (∀ op : Word, decode op = .ok .cls ↔ op = 0x00E0#16) ∧
  ∀ s : State, ∃ t, exec .cls s = .next t ∧ (∀ x y, Framebuffer.pixel t.fb x y = false) ∧
    ChangesOnly s t (fun q => ∃ x y, q = .pixel x y)

/-- R182 in closed form: exactly the covered pixels are toggled, from their value before the draw, and VF is 1 exactly when
some covered pixel was lit. -/
def Obligations.DrawTogglesCoveredPixels : Prop :=
  ∀ (x y : Reg) (n : Nibble), decode (0xD#4 ++ x ++ y ++ n) = .ok (.drwVxVyN x y n) ∧
    ∀ s : State, ∃ t, exec (.drwVxVyN x y n) s = .next t ∧
      (∀ px py, spriteCovers s x y n px py → Framebuffer.pixel t.fb px py = !Framebuffer.pixel s.fb px py) ∧
      ((∃ px py, spriteCovers s x y n px py ∧ Framebuffer.pixel s.fb px py = true) → t.reg 0xF#4 = 1#8) ∧
      ((¬ ∃ px py, spriteCovers s x y n px py ∧ Framebuffer.pixel s.fb px py = true) → t.reg 0xF#4 = 0#8) ∧
      ChangesOnly s t (fun q => q = .reg 0xF#4 ∨ ∃ px py, spriteCovers s x y n px py ∧ q = .pixel px py)

/-- Drawing the same sprite twice at the same place restores the picture (the example of R182), when VF, which the first draw writes,
is not a coordinate. -/
def Obligations.DrawingTwiceRestoresPicture : Prop :=
  ∀ (x y : Reg) (n : Nibble) (s t u : State) (p : Word), x ≠ 0xF#4 → y ≠ 0xF#4 →
    exec (.drwVxVyN x y n) s = .next t → exec (.drwVxVyN x y n) { t with pc := p } = .next u → u.fb = s.fb

/-! ## Timers and keys -/

/-- R190 and R191: the skip on a key's level, or the fault for an index above 15. -/
def Obligations.KeySkips : Prop :=
  ∀ x : Reg,
    decode (0xE#4 ++ x ++ 0x9E#8) = .ok (.skpVx x) ∧ decode (0xE#4 ++ x ++ 0xA1#8) = .ok (.sknpVx x) ∧
    (∀ (s : State) (k : Fin 16), (s.reg x).toNat = k.val →
      (∃ t, exec (.skpVx x) s = .next t ∧ (s.key[k.val] = true → t.pc = s.pc + 2) ∧ (s.key[k.val] = false → t.pc = s.pc) ∧
        ChangesOnly s t (fun q => q = .pc)) ∧
      (∃ t, exec (.sknpVx x) s = .next t ∧ (s.key[k.val] = false → t.pc = s.pc + 2) ∧ (s.key[k.val] = true → t.pc = s.pc) ∧
        ChangesOnly s t (fun q => q = .pc))) ∧
    (∀ s : State, 15 < (s.reg x).toNat →
      (∃ t, exec (.skpVx x) s = .next t ∧
        t.fault = some (s.fault.getD ⟨.machineFault, .keyIndexOutOfRange, s.pc - 2, 0xE#4 ++ x ++ 0x9E#8⟩) ∧
        ChangesOnly s t (fun q => q = .fault)) ∧
      (∃ t, exec (.sknpVx x) s = .next t ∧
        t.fault = some (s.fault.getD ⟨.machineFault, .keyIndexOutOfRange, s.pc - 2, 0xE#4 ++ x ++ 0xA1#8⟩) ∧
        ChangesOnly s t (fun q => q = .fault)))

/-- R193: the lowest pressed key's number, or pc back by 2 and nothing else. -/
def Obligations.KeyWait : Prop :=
  ∀ x : Reg, decode (0xF#4 ++ x ++ 0x0A#8) = .ok (.ldVxK x) ∧
    (∀ (s : State) (k : Fin 16), s.key[k.val] = true → (∀ j : Fin 16, j.val < k.val → s.key[j.val] = false) →
      ∃ t, exec (.ldVxK x) s = .next t ∧ (t.reg x).toNat = k.val ∧ ChangesOnly s t (fun q => q = .reg x)) ∧
    (∀ s : State, (∀ k : Fin 16, s.key[k.val] = false) →
      ∃ t, exec (.ldVxK x) s = .next t ∧ t.pc = s.pc - 2 ∧ ChangesOnly s t (fun q => q = .pc))

/-- With no key pressed, the STEP of a key wait ends in the very state it began in, the program counter included (R193 (c)). -/
def Obligations.KeyWaitSpins : Prop :=
  ∀ (s : State) (x : Reg), s.fault = none → s.pc.toNat ≤ 0xFFE →
    s.readByte s.pc.toNat ++ s.readByte (s.pc.toNat + 1) = 0xF#4 ++ x ++ 0x0A#8 →
    (∀ k : Fin 16, s.key[k.val] = false) →
    step s = .next s ∧ ∀ r : Byte, runCommand (.step r) s = .next s

/-- R192 and R194: the delay timer is read and set. -/
def Obligations.DelayTimerMoves : Prop :=
  ∀ x : Reg,
    decode (0xF#4 ++ x ++ 0x07#8) = .ok (.ldVxDt x) ∧ decode (0xF#4 ++ x ++ 0x15#8) = .ok (.ldDtVx x) ∧
    ∀ s : State,
      (∃ t, exec (.ldVxDt x) s = .next t ∧ t.reg x = s.dt ∧ ChangesOnly s t (fun q => q = .reg x)) ∧
      (∃ t, exec (.ldDtVx x) s = .next t ∧ t.dt = s.reg x ∧ ChangesOnly s t (fun q => q = .dt))

/-- R195, which the spec marks as derived: the sound timer is set, sound_stop is not raised, and sound_active follows ST at once. -/
def Obligations.SoundTimerSet : Prop :=
  ∀ x : Reg, decode (0xF#4 ++ x ++ 0x18#8) = .ok (.ldStVx x) ∧
    ∀ s : State, ∃ t, exec (.ldStVx x) s = .next t ∧ t.st = s.reg x ∧
      (∀ r : Byte, (response (.step r) s t).soundStop = false ∧ ((response (.step r) s t).soundActive = true ↔ s.reg x ≠ 0#8)) ∧
      ChangesOnly s t (fun q => q = .st)

/-! ## Host commands -/

/-- R196: both timers go down by one and stop at 0, faulted or not. -/
def Obligations.TickCountsDown : Prop :=
  ∀ s : State, ∃ t, runCommand .tick s = .next t ∧
    (s.dt = 0#8 → t.dt = 0#8) ∧ (s.dt ≠ 0#8 → t.dt.toNat + 1 = s.dt.toNat) ∧
    (s.st = 0#8 → t.st = 0#8) ∧ (s.st ≠ 0#8 → t.st.toNat + 1 = s.st.toNat) ∧
    ((response .tick s t).soundStop = true ↔ s.st = 1#8) ∧
    ChangesOnly s t (fun q => q = .dt ∨ q = .st)

/-- R197 and R198: the sound outputs of every command. -/
def Obligations.SoundOutputs : Prop :=
  ∀ (c : Command) (s t : State), runCommand c s = .next t →
    ((response c s t).soundStop = true ↔ c = .tick ∧ s.st = 1#8 ∧ t.st = 0#8) ∧
    ((response c s t).soundActive = true ↔ t.st ≠ 0#8)

/-- R199. -/
def Obligations.SetKeyWritesLevel : Prop :=
  ∀ (s : State) (pressed : Bool),
    (∀ k : Fin 16, ∃ t, runCommand (.setKey k.val pressed) s = .next t ∧ t.key[k.val] = pressed ∧
      ChangesOnly s t (fun q => q = .key k)) ∧
    (∀ index : Nat, 15 < index → ∃ t, runCommand (.setKey index pressed) s = .next t ∧
      t.fault = some (s.fault.getD ⟨.machineFault, .keyIndexOutOfRange, s.pc, BitVec.ofNat 16 (index % 2 ^ 16)⟩) ∧
      ChangesOnly s t (fun q => q = .fault))

/-- R98: the image at 0x200, and nothing else, faulted or not; or the fault with no byte written. -/
def Obligations.LoadWritesImage : Prop :=
  ∀ (s : State) (bytes : List Byte),
    (bytes.length ≤ 3584 → ∃ t, runCommand (.load bytes) s = .next t ∧
      (∀ (k : Nat) (h : k < bytes.length), t.readByte (0x200 + k) = bytes[k]) ∧
      ChangesOnly s t (fun q => ∃ k < bytes.length, q = .atAddress (0x200 + k))) ∧
    (3584 < bytes.length → ∃ t, runCommand (.load bytes) s = .next t ∧
      t.fault = some (s.fault.getD ⟨.machineFault, .loadOutOfBounds, s.pc, BitVec.ofNat 16 (bytes.length % 2 ^ 16)⟩) ∧
      ChangesOnly s t (fun q => q = .fault))

/-- R99: the 2048 bits in row-major order, and no change of state. -/
def Obligations.ReadFramebufferAnswersPixels : Prop :=
  ∀ s : State, runCommand .readFb s = .next s ∧
    ∃ bits : List Bool, (response .readFb s s).fb = some bits ∧ bits.length = 2048 ∧
      ∀ (x : Fin 64) (y : Fin 32), bits[y.val * 64 + x.val]? = some (Framebuffer.pixel s.fb x y)

/-- R240: RESET, in every state, sets every piece of the block's state to its value of R39; the font is the FONT parameter. -/
def Obligations.ResetSetsEveryPart : Prop :=
  ∀ s : State, ∃ t, runCommand .reset s = .next t ∧
    (∀ x, t.reg x = 0#8) ∧ t.index = 0#16 ∧ t.pc = 0x200#16 ∧ (∀ j : Fin 16, t.stack[j.val] = 0#16) ∧ t.sp = 0 ∧ t.dt = 0#8 ∧ t.st = 0#8 ∧
    (∀ k : Fin 16, t.key[k.val] = false) ∧ (∀ x y, Framebuffer.pixel t.fb x y = false) ∧ t.fault = none ∧
    (∀ a : Fin 80, t.readByte a.val = s.config.font[a.val]) ∧
    (∀ a : Nat, 0x050 ≤ a → a < 0x1000 → t.readByte a = 0#8)

/-- Power-on is RESET (R241): with the default parameters (log 3) and no draw made (log 2, the model's own), RESET gives the state the
machine starts in. -/
def Obligations.PowerOnEqualsReset : Prop :=
  ∀ s : State, s.config = Config.default → s.draws = 0 → runCommand .reset s = .next State.reset

/-- R242, which the spec marks as derived: RESET and LOAD from any state give what power-on and LOAD give. The count of draws, the model's own (log 2), is set equal. -/
def Obligations.ResetThenLoadEqualsPowerOnThenLoad : Prop :=
  ∀ (s : State) (bytes : List Byte), ∃ t u,
    runCommands [.reset, .load bytes] s = .next t ∧
    runCommand (.load bytes) (State.resetWith s.config) = .next u ∧ { t with draws := u.draws } = u

/-! ## Whole-machine rules -/

/-- R214: a command that faults changes only the latch and, after a fetch, pc by 2; the latch holds the address and the word of R211.
A latch that was set keeps its value, and a command that faults under it changes nothing. -/
def Obligations.FaultingCommandKeepsEverythingElse : Prop :=
  (∀ (c : Command) (s t : State) (f : FaultRecord), s.fault = none → runCommand c s = .next t → t.fault = some f →
    ChangesOnly s t (fun q => q = .pc ∨ q = .fault) ∧ f.addr = s.pc ∧ f.kind = f.cause.kind ∧
    ((∃ r, c = .step r) → f.cause ≠ .pcOutOfRange → t.pc = s.pc + 2 ∧ f.word = s.fetchWord s.pc) ∧
    ((∃ r, c = .step r) → f.cause = .pcOutOfRange → t.pc = s.pc ∧ f.word = 0#16) ∧
    ((¬ ∃ r, c = .step r) → t.pc = s.pc)) ∧
  (∀ (c : Command) (s t : State) (f : FaultRecord), s.fault = some f → c ≠ .reset → runCommand c s = .next t → t.fault = some f) ∧
  (∀ s : State, s.fault ≠ none →
    (∀ bytes : List Byte, 3584 < bytes.length → runCommand (.load bytes) s = .next s) ∧
    (∀ (index : Nat) (pressed : Bool), 15 < index → runCommand (.setKey index pressed) s = .next s))

/-- R215: once the latch is set STEP does nothing, every command but RESET keeps the latch, RESET clears it, and the state is no clean
end. -/
def Obligations.FirstFaultStaysUntilReset : Prop :=
  ∀ (c : Command) (s t : State) (f : FaultRecord), s.fault = some f → runCommand c s = .next t →
    ((∃ r, c = .step r) → t = s) ∧ (c ≠ .reset → t.fault = some f) ∧ (c = .reset → t.fault = none) ∧ ¬ s.cleanEnd

/-- R55: no command but RESET changes a byte of the font region. -/
def Obligations.OnlyResetWritesFontRegion : Prop :=
  ∀ (c : Command) (s t : State), c ≠ .reset → runCommand c s = .next t →
    ∀ a : Nat, a < 0x050 → t.readByte a = s.readByte a

/-- R27, R28, R30 to R33 and R61: which instructions may change I, the stack and sp, DT, ST, the framebuffer and memory; none changes
a key or a parameter. -/
def Obligations.OnlyNamedInstructionsWriteEachPart : Prop :=
  ∀ (i : Instr) (s t : State), exec i s = .next t →
    (t.index ≠ s.index → (∃ nnn, i = .ldINnn nnn) ∨ (∃ x, i = .addIVx x) ∨ (∃ x, i = .ldFVx x)) ∧
    (t.stack ≠ s.stack → ∃ nnn, i = .callNnn nnn) ∧
    (t.sp ≠ s.sp → i = .ret ∨ ∃ nnn, i = .callNnn nnn) ∧
    (t.dt ≠ s.dt → ∃ x, i = .ldDtVx x) ∧
    (t.st ≠ s.st → ∃ x, i = .ldStVx x) ∧
    (t.fb ≠ s.fb → i = .cls ∨ ∃ x y n, i = .drwVxVyN x y n) ∧
    (t.mem ≠ s.mem → (∃ x, i = .ldBVx x) ∨ ∃ x, i = .ldMemIVx x) ∧
    t.key = s.key ∧ t.config = s.config

/-- R21: VF changes as a side effect of six instructions only; any other instruction that changes it names it as its destination. -/
def Obligations.OnlyNamedInstructionsWriteVF : Prop :=
  ∀ (i : Instr) (s t : State), exec i s = .next t → t.reg 0xF#4 ≠ s.reg 0xF#4 →
    (∃ x y, i = .addVxVy x y ∨ i = .subVxVy x y ∨ i = .shrVxVy x y ∨ i = .subnVxVy x y ∨ i = .shlVxVy x y) ∨
    (∃ x y n, i = .drwVxVyN x y n) ∨
    (∃ nn, i = .ldVxNn 0xF#4 nn ∨ i = .addVxNn 0xF#4 nn ∨ i = .rndVxNn 0xF#4 nn) ∨
    (∃ y, i = .ldVxVy 0xF#4 y ∨ i = .orVxVy 0xF#4 y ∨ i = .andVxVy 0xF#4 y ∨ i = .xorVxVy 0xF#4 y) ∨
    i = .ldVxDt 0xF#4 ∨ i = .ldVxK 0xF#4 ∨ i = .ldVxMemI 0xF#4

/-- R24: where each instruction that does not fault leaves pc; A + 2 is s.pc. -/
def Obligations.PcAfterEachInstruction : Prop :=
  ∀ (i : Instr) (s t : State), exec i s = .next t →
    t.pc = s.pc ∨
    (t.pc = s.pc + 2 ∧
      ((∃ x nn, i = .seVxNn x nn ∨ i = .sneVxNn x nn) ∨ (∃ x y, i = .seVxVy x y ∨ i = .sneVxVy x y) ∨
        ∃ x, i = .skpVx x ∨ i = .sknpVx x)) ∨
    (∃ nnn, (i = .jpNnn nnn ∨ i = .callNnn nnn) ∧ t.pc.toNat = nnn.toNat) ∨
    (∃ nnn, i = .jpV0Nnn nnn ∧ t.pc.toNat = (s.reg 0#4).toNat + nnn.toNat) ∨
    (i = .ret ∧ ∃ j : Fin 16, s.sp.val = j.val + 1 ∧ t.pc = s.stack[j.val]) ∨
    (∃ x, i = .ldVxK x ∧ t.pc = s.pc - 2)

/-- R31: no instruction reads ST. Two states that differ in ST only, and so have the same byte at the rnd input, go to two states that
differ in ST at most. Where no byte of the host's is there, that RND draws the same free byte in both, which have the same count of draws,
is the model's choice (log 2) and no rule of the spec. -/
def Obligations.NoInstructionReadsSoundTimer : Prop :=
  ∀ (i : Instr) (s t : State) (b : Byte), exec i s = .next t →
    ∃ u, exec i { s with st := b } = .next u ∧ { u with st := t.st } = t

/-! ## Invariants -/

/-- The reset state meets the invariant of Sys2Proof/Safety.lean, with every value of the parameters. -/
def Obligations.ResetMeetsInvariant : Prop := ∀ c : Config, Inv (State.resetWith c)

/-- Every STEP keeps the invariant: memory stays canonical, the font region holds FONT, pc stays at most 0x10FE, a stack entry at most
0x1000, the latch's kind fits its cause, and the rnd input holds no value between commands. -/
def Obligations.StepKeepsInvariant : Prop := ∀ s t : State, Inv s → step s = .next t → Inv t

/-- So does every finite sequence of host commands. -/
def Obligations.EveryRunKeepsInvariant : Prop :=
  ∀ (cs : List Command) (s t : State), Inv s → runCommands cs s = .next t → Inv t
end

