-- ==== Sys2Proof/Laws/State.lean ====
section
/-! SUPPORT. One lemma per field per update of the state, so that no later proof unfolds a record update. -/

namespace Sys2Proof.Machine

/-! ## setReg -/

section
variable (s : State) (x : Reg) (b : Byte)

@[simp] theorem setReg_pc : (s.setReg x b).pc = s.pc := rfl
@[simp] theorem setReg_index : (s.setReg x b).index = s.index := rfl
@[simp] theorem setReg_stack : (s.setReg x b).stack = s.stack := rfl
@[simp] theorem setReg_sp : (s.setReg x b).sp = s.sp := rfl
@[simp] theorem setReg_dt : (s.setReg x b).dt = s.dt := rfl
@[simp] theorem setReg_st : (s.setReg x b).st = s.st := rfl
@[simp] theorem setReg_key : (s.setReg x b).key = s.key := rfl
@[simp] theorem setReg_fb : (s.setReg x b).fb = s.fb := rfl
@[simp] theorem setReg_mem : (s.setReg x b).mem = s.mem := rfl
@[simp] theorem setReg_fault : (s.setReg x b).fault = s.fault := rfl
@[simp] theorem setReg_config : (s.setReg x b).config = s.config := rfl
@[simp] theorem setReg_draws : (s.setReg x b).draws = s.draws := rfl
@[simp] theorem setReg_rnd : (s.setReg x b).rnd = s.rnd := rfl

end

/-! ## setPc -/

section
variable (s : State) (p : Word)

@[simp] theorem setPc_v : (s.setPc p).v = s.v := rfl
@[simp] theorem setPc_pc : (s.setPc p).pc = p := rfl
@[simp] theorem setPc_index : (s.setPc p).index = s.index := rfl
@[simp] theorem setPc_stack : (s.setPc p).stack = s.stack := rfl
@[simp] theorem setPc_sp : (s.setPc p).sp = s.sp := rfl
@[simp] theorem setPc_dt : (s.setPc p).dt = s.dt := rfl
@[simp] theorem setPc_st : (s.setPc p).st = s.st := rfl
@[simp] theorem setPc_key : (s.setPc p).key = s.key := rfl
@[simp] theorem setPc_fb : (s.setPc p).fb = s.fb := rfl
@[simp] theorem setPc_mem : (s.setPc p).mem = s.mem := rfl
@[simp] theorem setPc_fault : (s.setPc p).fault = s.fault := rfl
@[simp] theorem setPc_config : (s.setPc p).config = s.config := rfl
@[simp] theorem setPc_draws : (s.setPc p).draws = s.draws := rfl
@[simp] theorem setPc_rnd : (s.setPc p).rnd = s.rnd := rfl

end

/-! ## setIndex -/

section
variable (s : State) (w : Word)

@[simp] theorem setIndex_v : (s.setIndex w).v = s.v := rfl
@[simp] theorem setIndex_pc : (s.setIndex w).pc = s.pc := rfl
@[simp] theorem setIndex_index : (s.setIndex w).index = w := rfl
@[simp] theorem setIndex_stack : (s.setIndex w).stack = s.stack := rfl
@[simp] theorem setIndex_sp : (s.setIndex w).sp = s.sp := rfl
@[simp] theorem setIndex_dt : (s.setIndex w).dt = s.dt := rfl
@[simp] theorem setIndex_st : (s.setIndex w).st = s.st := rfl
@[simp] theorem setIndex_key : (s.setIndex w).key = s.key := rfl
@[simp] theorem setIndex_fb : (s.setIndex w).fb = s.fb := rfl
@[simp] theorem setIndex_mem : (s.setIndex w).mem = s.mem := rfl
@[simp] theorem setIndex_fault : (s.setIndex w).fault = s.fault := rfl
@[simp] theorem setIndex_config : (s.setIndex w).config = s.config := rfl
@[simp] theorem setIndex_draws : (s.setIndex w).draws = s.draws := rfl
@[simp] theorem setIndex_rnd : (s.setIndex w).rnd = s.rnd := rfl

end

/-! ## setDt -/

section
variable (s : State) (b : Byte)

@[simp] theorem setDt_v : (s.setDt b).v = s.v := rfl
@[simp] theorem setDt_pc : (s.setDt b).pc = s.pc := rfl
@[simp] theorem setDt_index : (s.setDt b).index = s.index := rfl
@[simp] theorem setDt_stack : (s.setDt b).stack = s.stack := rfl
@[simp] theorem setDt_sp : (s.setDt b).sp = s.sp := rfl
@[simp] theorem setDt_dt : (s.setDt b).dt = b := rfl
@[simp] theorem setDt_st : (s.setDt b).st = s.st := rfl
@[simp] theorem setDt_key : (s.setDt b).key = s.key := rfl
@[simp] theorem setDt_fb : (s.setDt b).fb = s.fb := rfl
@[simp] theorem setDt_mem : (s.setDt b).mem = s.mem := rfl
@[simp] theorem setDt_fault : (s.setDt b).fault = s.fault := rfl
@[simp] theorem setDt_config : (s.setDt b).config = s.config := rfl
@[simp] theorem setDt_draws : (s.setDt b).draws = s.draws := rfl
@[simp] theorem setDt_rnd : (s.setDt b).rnd = s.rnd := rfl

end

/-! ## setSt -/

section
variable (s : State) (b : Byte)

@[simp] theorem setSt_v : (s.setSt b).v = s.v := rfl
@[simp] theorem setSt_pc : (s.setSt b).pc = s.pc := rfl
@[simp] theorem setSt_index : (s.setSt b).index = s.index := rfl
@[simp] theorem setSt_stack : (s.setSt b).stack = s.stack := rfl
@[simp] theorem setSt_sp : (s.setSt b).sp = s.sp := rfl
@[simp] theorem setSt_dt : (s.setSt b).dt = s.dt := rfl
@[simp] theorem setSt_st : (s.setSt b).st = b := rfl
@[simp] theorem setSt_key : (s.setSt b).key = s.key := rfl
@[simp] theorem setSt_fb : (s.setSt b).fb = s.fb := rfl
@[simp] theorem setSt_mem : (s.setSt b).mem = s.mem := rfl
@[simp] theorem setSt_fault : (s.setSt b).fault = s.fault := rfl
@[simp] theorem setSt_config : (s.setSt b).config = s.config := rfl
@[simp] theorem setSt_draws : (s.setSt b).draws = s.draws := rfl
@[simp] theorem setSt_rnd : (s.setSt b).rnd = s.rnd := rfl

end

/-! ## setFb -/

section
variable (s : State) (f : Framebuffer)

@[simp] theorem setFb_v : (s.setFb f).v = s.v := rfl
@[simp] theorem setFb_pc : (s.setFb f).pc = s.pc := rfl
@[simp] theorem setFb_index : (s.setFb f).index = s.index := rfl
@[simp] theorem setFb_stack : (s.setFb f).stack = s.stack := rfl
@[simp] theorem setFb_sp : (s.setFb f).sp = s.sp := rfl
@[simp] theorem setFb_dt : (s.setFb f).dt = s.dt := rfl
@[simp] theorem setFb_st : (s.setFb f).st = s.st := rfl
@[simp] theorem setFb_key : (s.setFb f).key = s.key := rfl
@[simp] theorem setFb_fb : (s.setFb f).fb = f := rfl
@[simp] theorem setFb_mem : (s.setFb f).mem = s.mem := rfl
@[simp] theorem setFb_fault : (s.setFb f).fault = s.fault := rfl
@[simp] theorem setFb_config : (s.setFb f).config = s.config := rfl
@[simp] theorem setFb_draws : (s.setFb f).draws = s.draws := rfl
@[simp] theorem setFb_rnd : (s.setFb f).rnd = s.rnd := rfl

end

/-! ## setKey -/

section
variable (s : State) (k : Fin 16) (p : Bool)

@[simp] theorem setKey_v : (s.setKey k p).v = s.v := rfl
@[simp] theorem setKey_pc : (s.setKey k p).pc = s.pc := rfl
@[simp] theorem setKey_index : (s.setKey k p).index = s.index := rfl
@[simp] theorem setKey_stack : (s.setKey k p).stack = s.stack := rfl
@[simp] theorem setKey_sp : (s.setKey k p).sp = s.sp := rfl
@[simp] theorem setKey_dt : (s.setKey k p).dt = s.dt := rfl
@[simp] theorem setKey_st : (s.setKey k p).st = s.st := rfl
@[simp] theorem setKey_fb : (s.setKey k p).fb = s.fb := rfl
@[simp] theorem setKey_mem : (s.setKey k p).mem = s.mem := rfl
@[simp] theorem setKey_fault : (s.setKey k p).fault = s.fault := rfl
@[simp] theorem setKey_config : (s.setKey k p).config = s.config := rfl
@[simp] theorem setKey_draws : (s.setKey k p).draws = s.draws := rfl
@[simp] theorem setKey_rnd : (s.setKey k p).rnd = s.rnd := rfl

end

/-! ## setRnd -/

section
variable (s : State) (r : Option Byte)

@[simp] theorem setRnd_v : (s.setRnd r).v = s.v := rfl
@[simp] theorem setRnd_pc : (s.setRnd r).pc = s.pc := rfl
@[simp] theorem setRnd_index : (s.setRnd r).index = s.index := rfl
@[simp] theorem setRnd_stack : (s.setRnd r).stack = s.stack := rfl
@[simp] theorem setRnd_sp : (s.setRnd r).sp = s.sp := rfl
@[simp] theorem setRnd_dt : (s.setRnd r).dt = s.dt := rfl
@[simp] theorem setRnd_st : (s.setRnd r).st = s.st := rfl
@[simp] theorem setRnd_key : (s.setRnd r).key = s.key := rfl
@[simp] theorem setRnd_fb : (s.setRnd r).fb = s.fb := rfl
@[simp] theorem setRnd_mem : (s.setRnd r).mem = s.mem := rfl
@[simp] theorem setRnd_fault : (s.setRnd r).fault = s.fault := rfl
@[simp] theorem setRnd_config : (s.setRnd r).config = s.config := rfl
@[simp] theorem setRnd_draws : (s.setRnd r).draws = s.draws := rfl
@[simp] theorem setRnd_rnd : (s.setRnd r).rnd = r := rfl

end

/-! ## countDraw -/

section
variable (s : State)

@[simp] theorem countDraw_v : (s.countDraw).v = s.v := rfl
@[simp] theorem countDraw_pc : (s.countDraw).pc = s.pc := rfl
@[simp] theorem countDraw_index : (s.countDraw).index = s.index := rfl
@[simp] theorem countDraw_stack : (s.countDraw).stack = s.stack := rfl
@[simp] theorem countDraw_sp : (s.countDraw).sp = s.sp := rfl
@[simp] theorem countDraw_dt : (s.countDraw).dt = s.dt := rfl
@[simp] theorem countDraw_st : (s.countDraw).st = s.st := rfl
@[simp] theorem countDraw_key : (s.countDraw).key = s.key := rfl
@[simp] theorem countDraw_fb : (s.countDraw).fb = s.fb := rfl
@[simp] theorem countDraw_mem : (s.countDraw).mem = s.mem := rfl
@[simp] theorem countDraw_fault : (s.countDraw).fault = s.fault := rfl
@[simp] theorem countDraw_config : (s.countDraw).config = s.config := rfl
@[simp] theorem countDraw_draws : (s.countDraw).draws = if s.rnd.isSome then s.draws else s.draws + 1 := rfl
@[simp] theorem countDraw_rnd : (s.countDraw).rnd = s.rnd := rfl

end

/-! ## advance -/

section
variable (s : State)

@[simp] theorem advance_v : (s.advance).v = s.v := rfl
@[simp] theorem advance_pc : (s.advance).pc = s.pc + 2 := rfl
@[simp] theorem advance_index : (s.advance).index = s.index := rfl
@[simp] theorem advance_stack : (s.advance).stack = s.stack := rfl
@[simp] theorem advance_sp : (s.advance).sp = s.sp := rfl
@[simp] theorem advance_dt : (s.advance).dt = s.dt := rfl
@[simp] theorem advance_st : (s.advance).st = s.st := rfl
@[simp] theorem advance_key : (s.advance).key = s.key := rfl
@[simp] theorem advance_fb : (s.advance).fb = s.fb := rfl
@[simp] theorem advance_mem : (s.advance).mem = s.mem := rfl
@[simp] theorem advance_fault : (s.advance).fault = s.fault := rfl
@[simp] theorem advance_config : (s.advance).config = s.config := rfl
@[simp] theorem advance_draws : (s.advance).draws = s.draws := rfl
@[simp] theorem advance_rnd : (s.advance).rnd = s.rnd := rfl

end

/-! ## writeByte -/

section
variable (s : State) (a : Nat) (b : Byte)

@[simp] theorem writeByte_v : (s.writeByte a b).v = s.v := rfl
@[simp] theorem writeByte_pc : (s.writeByte a b).pc = s.pc := rfl
@[simp] theorem writeByte_index : (s.writeByte a b).index = s.index := rfl
@[simp] theorem writeByte_stack : (s.writeByte a b).stack = s.stack := rfl
@[simp] theorem writeByte_sp : (s.writeByte a b).sp = s.sp := rfl
@[simp] theorem writeByte_dt : (s.writeByte a b).dt = s.dt := rfl
@[simp] theorem writeByte_st : (s.writeByte a b).st = s.st := rfl
@[simp] theorem writeByte_key : (s.writeByte a b).key = s.key := rfl
@[simp] theorem writeByte_fb : (s.writeByte a b).fb = s.fb := rfl
@[simp] theorem writeByte_fault : (s.writeByte a b).fault = s.fault := rfl
@[simp] theorem writeByte_config : (s.writeByte a b).config = s.config := rfl
@[simp] theorem writeByte_draws : (s.writeByte a b).draws = s.draws := rfl
@[simp] theorem writeByte_rnd : (s.writeByte a b).rnd = s.rnd := rfl

end

/-! ## push -/

section
variable (s : State) (w : Word) (h : s.sp.val < stackDepth)

@[simp] theorem push_v : (s.push w h).v = s.v := rfl
@[simp] theorem push_pc : (s.push w h).pc = s.pc := rfl
@[simp] theorem push_index : (s.push w h).index = s.index := rfl
@[simp] theorem push_dt : (s.push w h).dt = s.dt := rfl
@[simp] theorem push_st : (s.push w h).st = s.st := rfl
@[simp] theorem push_key : (s.push w h).key = s.key := rfl
@[simp] theorem push_fb : (s.push w h).fb = s.fb := rfl
@[simp] theorem push_mem : (s.push w h).mem = s.mem := rfl
@[simp] theorem push_fault : (s.push w h).fault = s.fault := rfl
@[simp] theorem push_config : (s.push w h).config = s.config := rfl
@[simp] theorem push_draws : (s.push w h).draws = s.draws := rfl
@[simp] theorem push_rnd : (s.push w h).rnd = s.rnd := rfl

end

/-! ## popPc -/

section
variable (s : State) (h : 0 < s.sp.val)

@[simp] theorem popPc_v : (s.popPc h).v = s.v := rfl
@[simp] theorem popPc_index : (s.popPc h).index = s.index := rfl
@[simp] theorem popPc_stack : (s.popPc h).stack = s.stack := rfl
@[simp] theorem popPc_dt : (s.popPc h).dt = s.dt := rfl
@[simp] theorem popPc_st : (s.popPc h).st = s.st := rfl
@[simp] theorem popPc_key : (s.popPc h).key = s.key := rfl
@[simp] theorem popPc_fb : (s.popPc h).fb = s.fb := rfl
@[simp] theorem popPc_mem : (s.popPc h).mem = s.mem := rfl
@[simp] theorem popPc_fault : (s.popPc h).fault = s.fault := rfl
@[simp] theorem popPc_config : (s.popPc h).config = s.config := rfl
@[simp] theorem popPc_draws : (s.popPc h).draws = s.draws := rfl
@[simp] theorem popPc_rnd : (s.popPc h).rnd = s.rnd := rfl

end

/-! ## setResultFlag -/

section
variable (s : State) (x : Reg) (r : Byte) (f : Bool)

@[simp] theorem setResultFlag_pc : (s.setResultFlag x r f).pc = s.pc := rfl
@[simp] theorem setResultFlag_index : (s.setResultFlag x r f).index = s.index := rfl
@[simp] theorem setResultFlag_stack : (s.setResultFlag x r f).stack = s.stack := rfl
@[simp] theorem setResultFlag_sp : (s.setResultFlag x r f).sp = s.sp := rfl
@[simp] theorem setResultFlag_dt : (s.setResultFlag x r f).dt = s.dt := rfl
@[simp] theorem setResultFlag_st : (s.setResultFlag x r f).st = s.st := rfl
@[simp] theorem setResultFlag_key : (s.setResultFlag x r f).key = s.key := rfl
@[simp] theorem setResultFlag_fb : (s.setResultFlag x r f).fb = s.fb := rfl
@[simp] theorem setResultFlag_mem : (s.setResultFlag x r f).mem = s.mem := rfl
@[simp] theorem setResultFlag_fault : (s.setResultFlag x r f).fault = s.fault := rfl
@[simp] theorem setResultFlag_config : (s.setResultFlag x r f).config = s.config := rfl
@[simp] theorem setResultFlag_draws : (s.setResultFlag x r f).draws = s.draws := rfl
@[simp] theorem setResultFlag_rnd : (s.setResultFlag x r f).rnd = s.rnd := rfl

end

/-! ## skipIf -/

section
variable (s : State) (c : Bool)

@[simp] theorem skipIf_v : (s.skipIf c).v = s.v := by cases c <;> rfl
@[simp] theorem skipIf_index : (s.skipIf c).index = s.index := by cases c <;> rfl
@[simp] theorem skipIf_stack : (s.skipIf c).stack = s.stack := by cases c <;> rfl
@[simp] theorem skipIf_sp : (s.skipIf c).sp = s.sp := by cases c <;> rfl
@[simp] theorem skipIf_dt : (s.skipIf c).dt = s.dt := by cases c <;> rfl
@[simp] theorem skipIf_st : (s.skipIf c).st = s.st := by cases c <;> rfl
@[simp] theorem skipIf_key : (s.skipIf c).key = s.key := by cases c <;> rfl
@[simp] theorem skipIf_fb : (s.skipIf c).fb = s.fb := by cases c <;> rfl
@[simp] theorem skipIf_mem : (s.skipIf c).mem = s.mem := by cases c <;> rfl
@[simp] theorem skipIf_fault : (s.skipIf c).fault = s.fault := by cases c <;> rfl
@[simp] theorem skipIf_config : (s.skipIf c).config = s.config := by cases c <;> rfl
@[simp] theorem skipIf_draws : (s.skipIf c).draws = s.draws := by cases c <;> rfl
@[simp] theorem skipIf_rnd : (s.skipIf c).rnd = s.rnd := by cases c <;> rfl
@[simp] theorem skipIf_pc : (s.skipIf c).pc = if c then s.pc + 2 else s.pc := by cases c <;> rfl

end

/-! ## raise -/

section
variable (s : State) (c : FaultCause) (a w : Word)

@[simp] theorem raise_v : (s.raise c a w).v = s.v := by simp only [State.raise]; split <;> rfl
@[simp] theorem raise_pc : (s.raise c a w).pc = s.pc := by simp only [State.raise]; split <;> rfl
@[simp] theorem raise_index : (s.raise c a w).index = s.index := by simp only [State.raise]; split <;> rfl
@[simp] theorem raise_stack : (s.raise c a w).stack = s.stack := by simp only [State.raise]; split <;> rfl
@[simp] theorem raise_sp : (s.raise c a w).sp = s.sp := by simp only [State.raise]; split <;> rfl
@[simp] theorem raise_dt : (s.raise c a w).dt = s.dt := by simp only [State.raise]; split <;> rfl
@[simp] theorem raise_st : (s.raise c a w).st = s.st := by simp only [State.raise]; split <;> rfl
@[simp] theorem raise_key : (s.raise c a w).key = s.key := by simp only [State.raise]; split <;> rfl
@[simp] theorem raise_fb : (s.raise c a w).fb = s.fb := by simp only [State.raise]; split <;> rfl
@[simp] theorem raise_mem : (s.raise c a w).mem = s.mem := by simp only [State.raise]; split <;> rfl
@[simp] theorem raise_config : (s.raise c a w).config = s.config := by simp only [State.raise]; split <;> rfl
@[simp] theorem raise_draws : (s.raise c a w).draws = s.draws := by simp only [State.raise]; split <;> rfl
@[simp] theorem raise_rnd : (s.raise c a w).rnd = s.rnd := by simp only [State.raise]; split <;> rfl
/-- The latch after a fault: the new record, or the first one where there was one (R214). -/
@[simp] theorem raise_fault :
    (s.raise c a w).fault = some (s.fault.getD { kind := c.kind, cause := c, addr := a, word := w }) := by
  simp only [State.raise]; split <;> simp_all

end

/-! ## Loops of updates -/

/-- A property of states that every single byte write keeps is kept by a list of writes. -/
theorem writeBytes_keeps {p : State → Prop} (hp : ∀ s a b, p s → p (s.writeByte a b)) :
    ∀ (bytes : List Byte) (s : State) (a : Nat), p s → p (s.writeBytes a bytes)
  | [], _, _, h => h
  | b :: rest, s, a, h => writeBytes_keeps hp rest (s.writeByte a b) (a + 1) (hp s a b h)

/-- A list of byte writes changes memory only. -/
theorem writeBytes_eq (s : State) (a : Nat) (bytes : List Byte) :
    s.writeBytes a bytes = { s with mem := (s.writeBytes a bytes).mem } :=
  writeBytes_keeps (p := fun t => t = { s with mem := t.mem })
    (fun t a b h => by rw [h]; rfl) bytes s a rfl

/-- A left fold of register writes changes registers only. -/
theorem foldl_setReg_eq (f : Nat → Reg) (g : Nat → Byte) (ks : List Nat) :
    ∀ s : State, ks.foldl (fun t k => t.setReg (f k) (g k)) s =
      { s with v := (ks.foldl (fun t k => t.setReg (f k) (g k)) s).v } := by
  induction ks with
  | nil => intro s; rfl
  | cons k ks ih =>
    intro s
    rw [List.foldl_cons, ih (s.setReg (f k) (g k))]
    rfl

section
variable (s : State) (a : Nat) (bs : List Byte)

@[simp] theorem writeBytes_v : (s.writeBytes a bs).v = s.v := by rw [writeBytes_eq]
@[simp] theorem writeBytes_pc : (s.writeBytes a bs).pc = s.pc := by rw [writeBytes_eq]
@[simp] theorem writeBytes_index : (s.writeBytes a bs).index = s.index := by rw [writeBytes_eq]
@[simp] theorem writeBytes_stack : (s.writeBytes a bs).stack = s.stack := by rw [writeBytes_eq]
@[simp] theorem writeBytes_sp : (s.writeBytes a bs).sp = s.sp := by rw [writeBytes_eq]
@[simp] theorem writeBytes_dt : (s.writeBytes a bs).dt = s.dt := by rw [writeBytes_eq]
@[simp] theorem writeBytes_st : (s.writeBytes a bs).st = s.st := by rw [writeBytes_eq]
@[simp] theorem writeBytes_key : (s.writeBytes a bs).key = s.key := by rw [writeBytes_eq]
@[simp] theorem writeBytes_fb : (s.writeBytes a bs).fb = s.fb := by rw [writeBytes_eq]
@[simp] theorem writeBytes_fault : (s.writeBytes a bs).fault = s.fault := by rw [writeBytes_eq]
@[simp] theorem writeBytes_config : (s.writeBytes a bs).config = s.config := by rw [writeBytes_eq]
@[simp] theorem writeBytes_draws : (s.writeBytes a bs).draws = s.draws := by rw [writeBytes_eq]
@[simp] theorem writeBytes_rnd : (s.writeBytes a bs).rnd = s.rnd := by rw [writeBytes_eq]

end

section
variable (s : State) (x : Reg)

@[simp] theorem loadRegsUpTo_pc : (s.loadRegsUpTo x).pc = s.pc := by
  rw [State.loadRegsUpTo, foldl_setReg_eq]
@[simp] theorem loadRegsUpTo_index : (s.loadRegsUpTo x).index = s.index := by
  rw [State.loadRegsUpTo, foldl_setReg_eq]
@[simp] theorem loadRegsUpTo_stack : (s.loadRegsUpTo x).stack = s.stack := by
  rw [State.loadRegsUpTo, foldl_setReg_eq]
@[simp] theorem loadRegsUpTo_sp : (s.loadRegsUpTo x).sp = s.sp := by
  rw [State.loadRegsUpTo, foldl_setReg_eq]
@[simp] theorem loadRegsUpTo_dt : (s.loadRegsUpTo x).dt = s.dt := by
  rw [State.loadRegsUpTo, foldl_setReg_eq]
@[simp] theorem loadRegsUpTo_st : (s.loadRegsUpTo x).st = s.st := by
  rw [State.loadRegsUpTo, foldl_setReg_eq]
@[simp] theorem loadRegsUpTo_key : (s.loadRegsUpTo x).key = s.key := by
  rw [State.loadRegsUpTo, foldl_setReg_eq]
@[simp] theorem loadRegsUpTo_fb : (s.loadRegsUpTo x).fb = s.fb := by
  rw [State.loadRegsUpTo, foldl_setReg_eq]
@[simp] theorem loadRegsUpTo_mem : (s.loadRegsUpTo x).mem = s.mem := by
  rw [State.loadRegsUpTo, foldl_setReg_eq]
@[simp] theorem loadRegsUpTo_fault : (s.loadRegsUpTo x).fault = s.fault := by
  rw [State.loadRegsUpTo, foldl_setReg_eq]
@[simp] theorem loadRegsUpTo_config : (s.loadRegsUpTo x).config = s.config := by
  rw [State.loadRegsUpTo, foldl_setReg_eq]
@[simp] theorem loadRegsUpTo_draws : (s.loadRegsUpTo x).draws = s.draws := by
  rw [State.loadRegsUpTo, foldl_setReg_eq]
@[simp] theorem loadRegsUpTo_rnd : (s.loadRegsUpTo x).rnd = s.rnd := by
  rw [State.loadRegsUpTo, foldl_setReg_eq]

end

/-! ## Registers -/

/-- R10: a register write is read back, and leaves every other register. -/
theorem reg_setReg (s : State) (x r : Reg) (b : Byte) : (s.setReg x b).reg r = if r = x then b else s.reg r := by
  simp only [State.reg, State.setReg, Vector.getElem_set, BitVec.toNat_inj, eq_comm (a := x)]

@[simp] theorem reg_setReg_same (s : State) (x : Reg) (b : Byte) : (s.setReg x b).reg x = b := by simp [reg_setReg]

theorem reg_setReg_other (s : State) (x r : Reg) (b : Byte) (h : r ≠ x) : (s.setReg x b).reg r = s.reg r := by
  simp [reg_setReg, h]

/-- R131: VF holds the flag whatever x is, any other x holds the result, and no third register changes. -/
theorem reg_setResultFlag (s : State) (x r : Reg) (b : Byte) (f : Bool) :
    (s.setResultFlag x b f).reg r = if r = 0xF#4 then flagByte f else if r = x then b else s.reg r := by
  simp only [State.setResultFlag, reg_setReg]

@[simp] theorem setPc_reg (s : State) (p : Word) (r : Reg) : (s.setPc p).reg r = s.reg r := by simp [State.reg]
@[simp] theorem setIndex_reg (s : State) (w : Word) (r : Reg) : (s.setIndex w).reg r = s.reg r := by simp [State.reg]
@[simp] theorem setDt_reg (s : State) (b : Byte) (r : Reg) : (s.setDt b).reg r = s.reg r := by simp [State.reg]
@[simp] theorem setSt_reg (s : State) (b : Byte) (r : Reg) : (s.setSt b).reg r = s.reg r := by simp [State.reg]
@[simp] theorem setFb_reg (s : State) (f : Framebuffer) (r : Reg) : (s.setFb f).reg r = s.reg r := by simp [State.reg]
@[simp] theorem setKey_reg (s : State) (k : Fin 16) (p : Bool) (r : Reg) : (s.setKey k p).reg r = s.reg r := by simp [State.reg]
@[simp] theorem setRnd_reg (s : State) (b : Option Byte) (r : Reg) : (s.setRnd b).reg r = s.reg r := rfl
@[simp] theorem countDraw_reg (s : State) (r : Reg) : (s.countDraw).reg r = s.reg r := by simp [State.reg]
@[simp] theorem advance_reg (s : State) (r : Reg) : (s.advance).reg r = s.reg r := by simp [State.reg]
@[simp] theorem writeByte_reg (s : State) (a : Nat) (b : Byte) (r : Reg) : (s.writeByte a b).reg r = s.reg r := by simp [State.reg]
@[simp] theorem push_reg (s : State) (w : Word) (h : s.sp.val < stackDepth) (r : Reg) : (s.push w h).reg r = s.reg r := by simp [State.reg]
@[simp] theorem popPc_reg (s : State) (h : 0 < s.sp.val) (r : Reg) : (s.popPc h).reg r = s.reg r := by simp [State.reg]
@[simp] theorem skipIf_reg (s : State) (c : Bool) (r : Reg) : (s.skipIf c).reg r = s.reg r := by simp [State.reg]
@[simp] theorem raise_reg (s : State) (c : FaultCause) (a w : Word) (r : Reg) : (s.raise c a w).reg r = s.reg r := by simp [State.reg]
@[simp] theorem writeBytes_reg (s : State) (a : Nat) (bs : List Byte) (r : Reg) : (s.writeBytes a bs).reg r = s.reg r := by simp [State.reg]

/-! ## Memory bytes -/

@[simp] theorem setReg_readByte (s : State) (x : Reg) (b : Byte) (q : Nat) : (s.setReg x b).readByte q = s.readByte q := by simp [State.readByte]
@[simp] theorem setPc_readByte (s : State) (p : Word) (q : Nat) : (s.setPc p).readByte q = s.readByte q := by simp [State.readByte]
@[simp] theorem setIndex_readByte (s : State) (w : Word) (q : Nat) : (s.setIndex w).readByte q = s.readByte q := by simp [State.readByte]
@[simp] theorem setDt_readByte (s : State) (b : Byte) (q : Nat) : (s.setDt b).readByte q = s.readByte q := by simp [State.readByte]
@[simp] theorem setSt_readByte (s : State) (b : Byte) (q : Nat) : (s.setSt b).readByte q = s.readByte q := by simp [State.readByte]
@[simp] theorem setFb_readByte (s : State) (f : Framebuffer) (q : Nat) : (s.setFb f).readByte q = s.readByte q := by simp [State.readByte]
@[simp] theorem setKey_readByte (s : State) (k : Fin 16) (p : Bool) (q : Nat) : (s.setKey k p).readByte q = s.readByte q := by simp [State.readByte]
@[simp] theorem setRnd_readByte (s : State) (b : Option Byte) (q : Nat) : (s.setRnd b).readByte q = s.readByte q := rfl
@[simp] theorem countDraw_readByte (s : State) (q : Nat) : (s.countDraw).readByte q = s.readByte q := by simp [State.readByte]
@[simp] theorem advance_readByte (s : State) (q : Nat) : (s.advance).readByte q = s.readByte q := by simp [State.readByte]
@[simp] theorem push_readByte (s : State) (w : Word) (h : s.sp.val < stackDepth) (q : Nat) : (s.push w h).readByte q = s.readByte q := by simp [State.readByte]
@[simp] theorem popPc_readByte (s : State) (h : 0 < s.sp.val) (q : Nat) : (s.popPc h).readByte q = s.readByte q := by simp [State.readByte]
@[simp] theorem setResultFlag_readByte (s : State) (x : Reg) (r : Byte) (f : Bool) (q : Nat) : (s.setResultFlag x r f).readByte q = s.readByte q := by simp [State.readByte]
@[simp] theorem skipIf_readByte (s : State) (c : Bool) (q : Nat) : (s.skipIf c).readByte q = s.readByte q := by simp [State.readByte]
@[simp] theorem raise_readByte (s : State) (c : FaultCause) (a w : Word) (q : Nat) : (s.raise c a w).readByte q = s.readByte q := by simp [State.readByte]
@[simp] theorem loadRegsUpTo_readByte (s : State) (x : Reg) (q : Nat) : (s.loadRegsUpTo x).readByte q = s.readByte q := by simp [State.readByte]

end Sys2Proof.Machine
end

