-- ==== Sys2Proof/Laws/Display.lean ====
section
/-! SUPPORT. What a toggle, a sprite row and a whole sprite do to every pixel and to the collision output (44_display.md R182, R183).
Within one draw no pixel is toggled twice (R182 (g)), so every toggle acts on the pixel's value from before the draw. -/

namespace Sys2Proof.Machine

/-- A toggle changes exactly its own pixel. -/
theorem pixel_toggle (fb : Framebuffer) (x px : Fin 64) (y py : Fin 32) :
    Framebuffer.pixel (Framebuffer.toggle fb x y) px py =
      (Framebuffer.pixel fb px py ^^ decide (px = x ∧ py = y)) := by
  simp only [Framebuffer.pixel, Framebuffer.toggle, Vector.getElem_set]
  by_cases hy : y.val = py.val
  · have hy' : y = py := Fin.ext hy
    subst hy'
    simp only [if_true, BitVec.getLsbD_xor, BitVec.getLsbD_twoPow]
    by_cases hx : px = x
    · subst hx; simp
    · have : x.val ≠ px.val := fun h => hx (Fin.ext h.symm)
      simp [hx, this]
  · have : py ≠ y := fun h => hy (by rw [h])
    simp [hy, this]

@[simp] theorem pixel_blank (x : Fin 64) (y : Fin 32) : Framebuffer.pixel (Vector.replicate 32 0#64) x y = false := by
  simp [Framebuffer.pixel]

/-- Two framebuffers with the same pixels are the same. -/
theorem fb_ext (f g : Framebuffer) (h : ∀ x y, Framebuffer.pixel f x y = Framebuffer.pixel g x y) : f = g := by
  apply Vector.ext
  intro i hi
  apply BitVec.eq_of_getLsbD_eq
  intro j hj
  exact h ⟨j, hj⟩ ⟨i, hi⟩

/-! ## A list of toggles at distinct pixels

The loops of R182 toggle, for each place p of a list with bit p set, the pixel at p. -/

/-- What a loop over the places ps leaves: covered pixels are toggled, and the collision output has seen a lit one. -/
structure DrawnOver (d d' : Drawing) (covers : Fin 64 → Fin 32 → Prop) : Prop where
  toggled : ∀ px py, covers px py → Framebuffer.pixel d'.fb px py = !Framebuffer.pixel d.fb px py
  kept : ∀ px py, ¬ covers px py → Framebuffer.pixel d'.fb px py = Framebuffer.pixel d.fb px py
  collision : d'.collision = true ↔ d.collision = true ∨ ∃ px py, covers px py ∧ Framebuffer.pixel d.fb px py = true

theorem DrawnOver.refl (d : Drawing) (covers : Fin 64 → Fin 32 → Prop) (h : ∀ px py, ¬ covers px py) : DrawnOver d d covers :=
  ⟨fun px py hc => absurd hc (h px py), fun _ _ _ => rfl, by simp [h]⟩

/-- Two loops over disjoint places make one loop. -/
theorem DrawnOver.trans {d d' d'' : Drawing} {p q : Fin 64 → Fin 32 → Prop} (h : DrawnOver d d' p) (h' : DrawnOver d' d'' q)
    (hd : ∀ px py, p px py → ¬ q px py) : DrawnOver d d'' (fun px py => p px py ∨ q px py) := by
  have hq : ∀ px py, q px py → ¬ p px py := fun px py hq hp => hd px py hp hq
  refine ⟨?_, ?_, ?_⟩
  · rintro px py (hp | hq')
    · rw [h'.kept px py (hd px py hp), h.toggled px py hp]
    · rw [h'.toggled px py hq', h.kept px py (hq px py hq')]
  · intro px py hn
    rw [h'.kept px py (fun hq' => hn (.inr hq')), h.kept px py (fun hp => hn (.inl hp))]
  · rw [h'.collision, h.collision]
    constructor
    · rintro ((hc | ⟨px, py, hp, hl⟩) | ⟨px, py, hq', hl⟩)
      · exact .inl hc
      · exact .inr ⟨px, py, .inl hp, hl⟩
      · exact .inr ⟨px, py, .inr hq', by rwa [h.kept px py (hq px py hq')] at hl⟩
    · rintro (hc | ⟨px, py, hp | hq', hl⟩)
      · exact .inl (.inl hc)
      · exact .inl (.inr ⟨px, py, hp, hl⟩)
      · exact .inr ⟨px, py, hq', by rwa [h.kept px py (hq px py hq')]⟩

theorem DrawnOver.congr {d d' : Drawing} {p q : Fin 64 → Fin 32 → Prop} (h : DrawnOver d d' p) (hpq : ∀ px py, p px py ↔ q px py) :
    DrawnOver d d' q := by
  rwa [show q = p from funext fun px => funext fun py => propext (hpq px py).symm]

/-- One place: its pixel when its bit is set, nothing when it is not. -/
theorem drawnOver_toggle (d : Drawing) (x : Fin 64) (y : Fin 32) (bit : Bool) :
    DrawnOver d (if bit then d.toggle x y else d) (fun px py => bit = true ∧ px = x ∧ py = y) := by
  cases bit with
  | false => exact DrawnOver.refl d _ (by simp)
  | true =>
    simp only [if_true]
    refine ⟨?_, ?_, ?_⟩
    · rintro px py ⟨-, rfl, rfl⟩
      simp [Drawing.toggle, pixel_toggle]
    · intro px py hn
      have : ¬ (px = x ∧ py = y) := fun h => hn ⟨trivial, h⟩
      simp [Drawing.toggle, pixel_toggle, this]
    · simp [Drawing.toggle]

/-- The first `count` pixels of a sprite row, count at most 8: their columns are distinct. -/
theorem drawnOver_rowPrefix (sx sy : Byte) (r : Nat) (row : Byte) (d : Drawing) :
    ∀ count ≤ 8, DrawnOver d
      ((List.range count).foldl
        (fun d b => if spriteBit row b then d.toggle (wrapColumn (sx.toNat + b)) (wrapRow (sy.toNat + r)) else d) d)
      (fun px py => ∃ b < count, spriteBit row b = true ∧ px = wrapColumn (sx.toNat + b) ∧ py = wrapRow (sy.toNat + r)) := by
  intro count
  induction count with
  | zero => intro _; exact DrawnOver.refl d _ (by simp)
  | succ n ih =>
    intro hn
    rw [List.range_succ, List.foldl_append, List.foldl_cons, List.foldl_nil]
    refine (DrawnOver.trans (ih (by omega)) (drawnOver_toggle _ _ _ _) ?_).congr ?_
    · rintro px py ⟨b, hb, -, hx, -⟩ ⟨-, hx', -⟩
      have := congrArg Fin.val (hx.symm.trans hx')
      simp only [wrapColumn] at this
      omega
    · intro px py
      constructor
      · rintro (⟨b, hb, h⟩ | h)
        · exact ⟨b, by omega, h⟩
        · exact ⟨n, by omega, h⟩
      · rintro ⟨b, hb, h⟩
        rcases Nat.lt_succ_iff_lt_or_eq.1 hb with hb | rfl
        · exact .inl ⟨b, hb, h⟩
        · exact .inr h

theorem drawnOver_drawRow (sx sy : Byte) (r : Nat) (row : Byte) (d : Drawing) :
    DrawnOver d (d.drawRow sx sy r row)
      (fun px py => ∃ b < 8, spriteBit row b = true ∧ px = wrapColumn (sx.toNat + b) ∧ py = wrapRow (sy.toNat + r)) :=
  drawnOver_rowPrefix sx sy r row d 8 (Nat.le_refl 8)

/-- The first `count` rows of a sprite, count at most 15: their rows are distinct mod 32. -/
theorem drawnOver_rows (sx sy : Byte) (rowAt : Nat → Byte) (d : Drawing) :
    ∀ count ≤ 15, DrawnOver d ((List.range count).foldl (fun d r => d.drawRow sx sy r (rowAt r)) d)
      (fun px py => ∃ r < count, ∃ b < 8,
        spriteBit (rowAt r) b = true ∧ px = wrapColumn (sx.toNat + b) ∧ py = wrapRow (sy.toNat + r)) := by
  intro count
  induction count with
  | zero => intro _; exact DrawnOver.refl d _ (by simp)
  | succ n ih =>
    intro hn
    rw [List.range_succ, List.foldl_append, List.foldl_cons, List.foldl_nil]
    refine (DrawnOver.trans (ih (by omega)) (drawnOver_drawRow sx sy n (rowAt n) _) ?_).congr ?_
    · rintro px py ⟨r, hr, b, -, -, -, hy⟩ ⟨b', -, -, -, hy'⟩
      have := congrArg Fin.val (hy.symm.trans hy')
      simp only [wrapRow] at this
      omega
    · intro px py
      constructor
      · rintro (⟨r, hr, h⟩ | h)
        · exact ⟨r, by omega, h⟩
        · exact ⟨n, by omega, h⟩
      · rintro ⟨r, hr, h⟩
        rcases Nat.lt_succ_iff_lt_or_eq.1 hr with hr | rfl
        · exact .inl ⟨r, hr, h⟩
        · exact .inr h

/-- The whole sprite of R182, drawn on the state's framebuffer. -/
theorem drawnOver_drawSprite (s : State) (sx sy : Byte) (n : Nibble) :
    DrawnOver ⟨s.fb, false⟩ (s.drawSprite sx sy n)
      (fun px py => ∃ r < n.toNat, ∃ b < 8, spriteBit (s.readByte (s.dataAddr r)) b = true ∧
        px = wrapColumn (sx.toNat + b) ∧ py = wrapRow (sy.toNat + r)) :=
  drawnOver_rows sx sy (fun r => s.readByte (s.dataAddr r)) ⟨s.fb, false⟩ n.toNat (by have := n.isLt; omega)

end Sys2Proof.Machine
end

