-- ==== Sys2Proof/Laws/Encoding.lean ====
section
/-! SUPPORT. The fields of a word put together from its fields (30_encoding.md R71), and a word put together from its own fields. -/

namespace Sys2Proof

section
variable (d x y n : BitVec 4) (nn : Byte) (nnn : Addr12)

@[simp] theorem fieldD1_nnn : fieldD1 (d ++ nnn) = d := BitVec.extractLsb'_append_eq_left
@[simp] theorem fieldNNN_nnn : fieldNNN (d ++ nnn) = nnn := BitVec.extractLsb'_append_eq_right

theorem append_nn_eq : d ++ x ++ nn = (d ++ (x ++ nn) : Word) := BitVec.append_assoc

theorem append_xyn_eq : d ++ x ++ y ++ n = (d ++ x ++ (y ++ n) : Word) := BitVec.append_assoc

@[simp] theorem fieldD1_nn : fieldD1 (d ++ x ++ nn) = d := by rw [append_nn_eq]; exact fieldD1_nnn ..
@[simp] theorem fieldNN_nn : fieldNN (d ++ x ++ nn) = nn := BitVec.extractLsb'_append_eq_right
@[simp] theorem fieldX_nn : fieldX (d ++ x ++ nn) = x := by
  have h : (d ++ x ++ nn).extractLsb' 8 8 = d ++ x := BitVec.extractLsb'_append_eq_left
  have : fieldX (d ++ x ++ nn) = ((d ++ x ++ nn).extractLsb' 8 8).extractLsb' 0 4 := by
    ext i hi; simp [fieldX, BitVec.getElem_extractLsb', Nat.lt_of_lt_of_le hi (by decide : 4 ≤ 8)]
  rw [this, h]; exact BitVec.extractLsb'_append_eq_right

@[simp] theorem fieldD1_xyn : fieldD1 (d ++ x ++ y ++ n) = d := by rw [append_xyn_eq]; exact fieldD1_nn ..
@[simp] theorem fieldX_xyn : fieldX (d ++ x ++ y ++ n) = x := by rw [append_xyn_eq]; exact fieldX_nn ..
@[simp] theorem fieldN_xyn : fieldN (d ++ x ++ y ++ n) = n := BitVec.extractLsb'_append_eq_right
@[simp] theorem fieldY_xyn : fieldY (d ++ x ++ y ++ n) = y := by
  have h : (d ++ x ++ (y ++ n)).extractLsb' 0 8 = y ++ n := BitVec.extractLsb'_append_eq_right
  have : fieldY (d ++ x ++ (y ++ n)) = ((d ++ x ++ (y ++ n)).extractLsb' 0 8).extractLsb' 4 4 := by
    ext i hi
    simp [fieldY, BitVec.getElem_extractLsb']
  rw [append_xyn_eq, this, h]; exact BitVec.extractLsb'_append_eq_left

end

/-! ## A word is its fields -/

theorem word_eq_nnn (op : Word) : fieldD1 op ++ fieldNNN op = op := by
  have := op.isLt
  apply BitVec.eq_of_toNat_eq
  simp only [fieldD1, fieldNNN, BitVec.toNat_append, BitVec.extractLsb'_toNat, Nat.shiftRight_eq_div_pow, Nat.pow_zero, Nat.div_one]
  rw [← Nat.shiftLeft_add_eq_or_of_lt (Nat.mod_lt _ (by decide)), Nat.shiftLeft_eq]
  omega

theorem nnn_eq_nn (op : Word) : fieldX op ++ fieldNN op = fieldNNN op := by
  have := op.isLt
  apply BitVec.eq_of_toNat_eq
  simp only [fieldX, fieldNN, fieldNNN, BitVec.toNat_append, BitVec.extractLsb'_toNat, Nat.shiftRight_eq_div_pow, Nat.pow_zero,
    Nat.div_one]
  rw [← Nat.shiftLeft_add_eq_or_of_lt (Nat.mod_lt _ (by decide)), Nat.shiftLeft_eq]
  omega

theorem nn_eq_yn (op : Word) : fieldY op ++ fieldN op = fieldNN op := by
  have := op.isLt
  apply BitVec.eq_of_toNat_eq
  simp only [fieldY, fieldN, fieldNN, BitVec.toNat_append, BitVec.extractLsb'_toNat, Nat.shiftRight_eq_div_pow, Nat.pow_zero,
    Nat.div_one]
  rw [← Nat.shiftLeft_add_eq_or_of_lt (Nat.mod_lt _ (by decide)), Nat.shiftLeft_eq]
  omega

theorem word_eq_nn (op : Word) : fieldD1 op ++ fieldX op ++ fieldNN op = op := by
  rw [append_nn_eq, nnn_eq_nn, word_eq_nnn]

theorem word_eq_xyn (op : Word) : fieldD1 op ++ fieldX op ++ fieldY op ++ fieldN op = op := by
  rw [append_xyn_eq, nn_eq_yn, word_eq_nn]

/-- The two bytes of a word, joined again, are the word (R53). -/
theorem wordBytes_append (op : Word) : op.extractLsb' 8 8 ++ op.extractLsb' 0 8 = op := by
  have := op.isLt
  apply BitVec.eq_of_toNat_eq
  simp only [BitVec.toNat_append, BitVec.extractLsb'_toNat, Nat.shiftRight_eq_div_pow, Nat.pow_zero, Nat.div_one]
  rw [← Nat.shiftLeft_add_eq_or_of_lt (Nat.mod_lt _ (by decide)), Nat.shiftLeft_eq]
  omega

end Sys2Proof
end

