-- ==== Sys2Proof/Laws/Memory.lean ====
section
/-! SUPPORT. The laws of memory: a read after a write, the canonical form that every write keeps (log 8), and what a list of byte
writes leaves at every address. The read laws hold in every memory, canonical or not. -/

namespace Sys2Proof.Machine

variable (font : Vector Byte 80)

/-! ## One cell -/

theorem read_insert (m : Memory) (a q : Nat) (b : Byte) (h : ∀ c ∈ m, c.1 ≠ a) :
    Memory.read font (Memory.insert m a b) q = if q = a then b else Memory.read font m q := by
  induction m with
  | nil => simp [Memory.insert, Memory.read]
  | cons c rest ih =>
    obtain ⟨a', b'⟩ := c
    have hne : a' ≠ a := h _ (List.mem_cons_self ..)
    have ih := ih (fun c hc => h c (List.mem_cons_of_mem _ hc))
    unfold Memory.insert
    split
    · simp [Memory.read]
    · simp only [Memory.read, ih]
      by_cases hq : q = a'
      · subst hq; simp [hne]
      · simp [hq]

theorem read_filter (m : Memory) (a q : Nat) :
    Memory.read font (m.filter (fun c => c.1 != a)) q = if q = a then Memory.base font a else Memory.read font m q := by
  induction m with
  | nil => simp only [List.filter_nil, Memory.read]; split <;> simp_all
  | cons c rest ih =>
    obtain ⟨a', b'⟩ := c
    rw [List.filter_cons]
    by_cases ha : a' = a
    · subst ha
      simp only [bne_self_eq_false, Bool.false_eq_true, if_false, ih, Memory.read]
      split <;> simp_all
    · simp only [bne_iff_ne, ne_eq, ha, not_false_eq_true, if_true, Memory.read, ih]
      by_cases hq : q = a'
      · subst hq; simp [ha]
      · simp [hq]

/-- A byte written is read back, and every other byte stays (R52, R54, R63). -/
theorem read_write (m : Memory) (a q : Nat) (b : Byte) :
    Memory.read font (Memory.write font m a b) q = if q = a then b else Memory.read font m q := by
  unfold Memory.write
  split
  · rename_i hb
    rw [read_filter, hb]
  · rw [read_insert _ _ _ _ _ (by simp), read_filter]
    split <;> simp_all

/-! ## The canonical form -/

theorem rising_filter (m : Memory) (p : Host.Cell → Bool) (h : Memory.rising m = true) : Memory.rising (m.filter p) = true := by
  induction m with
  | nil => rfl
  | cons c rest ih =>
    simp only [Memory.rising, Bool.and_eq_true, List.all_eq_true] at h
    rw [List.filter_cons]
    split
    · simp only [Memory.rising, Bool.and_eq_true, List.all_eq_true]
      exact ⟨fun d hd => h.1 d (List.mem_filter.1 hd).1, ih h.2⟩
    · exact ih h.2

theorem mem_insert (m : Memory) (a : Nat) (b : Byte) (d : Host.Cell) : d ∈ Memory.insert m a b ↔ d = (a, b) ∨ d ∈ m := by
  induction m with
  | nil => simp [Memory.insert]
  | cons c rest ih =>
    unfold Memory.insert
    split
    · simp
    · simp only [List.mem_cons, ih]; tauto

theorem rising_insert (m : Memory) (a : Nat) (b : Byte) (hne : ∀ c ∈ m, c.1 ≠ a) (h : Memory.rising m = true) :
    Memory.rising (Memory.insert m a b) = true := by
  induction m with
  | nil => rfl
  | cons c rest ih =>
    simp only [Memory.rising, Bool.and_eq_true, List.all_eq_true, decide_eq_true_eq] at h
    have hc := hne c (List.mem_cons_self ..)
    unfold Memory.insert
    split
    · rename_i hlt
      simp only [Memory.rising, Bool.and_eq_true, List.all_eq_true, decide_eq_true_eq, List.mem_cons, forall_eq_or_imp]
      exact ⟨⟨hlt, fun d hd => Nat.lt_trans hlt (h.1 d hd)⟩, h⟩
    · simp only [Memory.rising, Bool.and_eq_true, List.all_eq_true, decide_eq_true_eq]
      refine ⟨fun d hd => ?_, ih (fun d hd => hne d (List.mem_cons_of_mem _ hd)) h.2⟩
      rcases (mem_insert ..).1 hd with rfl | hd
      · simp only; omega
      · exact h.1 d hd

/-- A write keeps the canonical form. -/
theorem write_wf (m : Memory) (a : Nat) (b : Byte) (ha : a < memSize) (h : Memory.wf font m = true) :
    Memory.wf font (Memory.write font m a b) = true := by
  simp only [Memory.wf, Bool.and_eq_true, List.all_eq_true] at h ⊢
  obtain ⟨hr, hc⟩ := h
  have hf := rising_filter m (fun c => c.1 != a) hr
  have hfc : ∀ c ∈ m.filter (fun c => c.1 != a), decide (c.1 < memSize) = true ∧ (c.2 != Memory.base font c.1) = true :=
    fun c hm => hc c (List.mem_filter.1 hm).1
  unfold Memory.write
  split
  · exact ⟨hf, hfc⟩
  · rename_i hb
    refine ⟨rising_insert _ _ _ (by simp) hf, fun d hd => ?_⟩
    rcases (mem_insert ..).1 hd with rfl | hd
    · simp [ha, hb]
    · exact hfc d hd

theorem reset_memory_wf : Memory.wf font [] = true := rfl

/-! ## The state's bytes -/

/-- R52, R54: a byte write reaches exactly the address reduced mod 4096. -/
theorem readByte_writeByte (s : State) (a q : Nat) (b : Byte) :
    (s.writeByte a b).readByte q = if q % memSize = a % memSize then b else s.readByte q := by
  simp only [State.readByte, State.writeByte, read_write]

theorem writeByte_wf (s : State) (a : Nat) (b : Byte) (h : Memory.wf s.config.font s.mem = true) :
    Memory.wf (s.writeByte a b).config.font (s.writeByte a b).mem = true :=
  write_wf _ _ _ _ (Nat.mod_lt _ (by decide)) h

/-- A list of byte writes keeps the canonical form. -/
theorem writeBytes_wf (s : State) (a : Nat) (bytes : List Byte) (h : Memory.wf s.config.font s.mem = true) :
    Memory.wf (s.writeBytes a bytes).config.font (s.writeBytes a bytes).mem = true :=
  writeBytes_keeps (p := fun t => Memory.wf t.config.font t.mem = true) writeByte_wf bytes s a h

/-- An address that no write of the list reaches reads as before. -/
theorem readByte_writeBytes_other (bytes : List Byte) (q : Nat) :
    ∀ (s : State) (a : Nat), (∀ k < bytes.length, q % memSize ≠ (a + k) % memSize) →
      (s.writeBytes a bytes).readByte q = s.readByte q := by
  induction bytes with
  | nil => intro s a _; rfl
  | cons b rest ih =>
    intro s a h
    rw [State.writeBytes, ih (s.writeByte a b) (a + 1), readByte_writeByte, if_neg (by simpa using h 0 (by simp))]
    intro k hk
    have := h (k + 1) (by simpa using hk)
    rwa [show a + (k + 1) = a + 1 + k by omega] at this

/-- The k-th byte of a list of at most 4096 writes is read back at its own address. -/
theorem readByte_writeBytes (bytes : List Byte) (hl : bytes.length ≤ memSize) :
    ∀ (s : State) (a k : Nat) (h : k < bytes.length), (s.writeBytes a bytes).readByte (a + k) = bytes[k] := by
  induction bytes with
  | nil => intro s a k h; simp at h
  | cons b rest ih =>
    intro s a k h
    simp only [List.length_cons] at hl h
    rw [State.writeBytes]
    cases k with
    | zero =>
      rw [readByte_writeBytes_other rest, readByte_writeByte]
      · simp
      · intro j hj; simp only [memSize] at *; omega
    | succ k =>
      have := ih (by omega) (s.writeByte a b) (a + 1) k (by omega)
      rwa [show a + 1 + k = a + (k + 1) by omega] at this

/-- What the font check of R55 says: every target lies outside the font region. -/
theorem storesIntoFont_eq_false (a count : Nat) :
    storesIntoFont a count = false ↔ ∀ k < count, fontSize ≤ (a + k) % memSize := by
  simp [storesIntoFont]

theorem storesIntoFont_eq_true (a count : Nat) :
    storesIntoFont a count = true ↔ ∃ k < count, (a + k) % memSize < fontSize := by
  simp [storesIntoFont]

/-! ## Register loads -/

/-- A left fold of register writes to distinct registers 0..count-1 writes those and leaves the others. -/
theorem reg_foldl_setReg (g : Nat → Byte) (r : Reg) :
    ∀ (count : Nat) (s : State), count ≤ 16 →
      ((List.range count).foldl (fun t k => t.setReg (BitVec.ofNat 4 k) (g k)) s).reg r =
        if r.toNat < count then g r.toNat else s.reg r := by
  intro count
  induction count with
  | zero => intro s _; simp
  | succ n ih =>
    intro s hn
    rw [List.range_succ, List.foldl_append, List.foldl_cons, List.foldl_nil, reg_setReg, ih s (by omega)]
    have hr : r = BitVec.ofNat 4 n ↔ r.toNat = n := by
      rw [← BitVec.toNat_inj, BitVec.toNat_ofNat, Nat.mod_eq_of_lt (by omega)]
    by_cases h : r.toNat = n
    · rw [if_pos (hr.2 h), if_pos (by omega), h]
    · rw [if_neg (mt hr.1 h)]
      by_cases h' : r.toNat < n
      · rw [if_pos h', if_pos (by omega)]
      · rw [if_neg h', if_neg (by omega)]

/-- R165: V[0..x] are loaded from I + k, and the other registers stay. -/
theorem reg_loadRegsUpTo (s : State) (x r : Reg) :
    (s.loadRegsUpTo x).reg r = if r.toNat ≤ x.toNat then s.readByte (s.index.toNat + r.toNat) else s.reg r := by
  rw [State.loadRegsUpTo, reg_foldl_setReg _ r _ _ (by have := x.isLt; omega)]
  simp only [State.dataAddr, Nat.lt_succ_iff]

@[simp] theorem regsUpTo_length (s : State) (x : Reg) : (s.regsUpTo x).length = x.toNat + 1 := by simp [State.regsUpTo]

@[simp] theorem regsUpTo_getElem (s : State) (x : Reg) (k : Nat) (h : k < (s.regsUpTo x).length) :
    (s.regsUpTo x)[k] = s.reg (BitVec.ofNat 4 k) := by simp [State.regsUpTo]

end Sys2Proof.Machine
end

