-- ==== Sys2Proof/Laws/Step.lean ====
section
/-! SUPPORT. What the shared operations of the meanings and one STEP can do, said once: every arm answers a next state, a fault of an
instruction changes the latch only, a store at I either faults or writes its bytes, and a STEP is in one of four cases. -/

namespace Sys2Proof.Machine

/-- A fault of the executing instruction changes the latch only, which keeps a fault it already holds (R214). -/
theorem raiseInstr_eq (s : State) (c : FaultCause) (i : Instr) :
    s.raiseInstr c i =
      { s with fault := some (s.fault.getD { kind := c.kind, cause := c, addr := s.pc - 2, word := encode i }) } := by
  simp only [State.raiseInstr, State.raise]
  split <;> simp_all
  rename_i h
  cases s; simp_all

/-- A store at I: the fault of R55 with no byte written, or the bytes at I, I + 1, .... -/
theorem storeAtIndex_cases (s : State) (i : Instr) (bytes : List Byte) :
    ((∃ k < bytes.length, (s.index.toNat + k) % memSize < fontSize) ∧
      s.storeAtIndex i bytes = s.raiseInstr .fontRegionWrite i) ∨
    ((∀ k < bytes.length, fontSize ≤ (s.index.toNat + k) % memSize) ∧
      s.storeAtIndex i bytes = s.writeBytes s.index.toNat bytes) := by
  unfold State.storeAtIndex
  rw [show s.dataAddr 0 = s.index.toNat from rfl]
  by_cases h : storesIntoFont s.index.toNat bytes.length = true
  · exact .inl ⟨(storesIntoFont_eq_true ..).1 h, by rw [if_pos h]⟩
  · exact .inr ⟨(storesIntoFont_eq_false ..).1 (by simpa using h), by rw [if_neg h]⟩

/-- A key skip: on a key number of 15 or less the skip on its level, else the fault (R190, R191). -/
theorem skipOnKey_cases (s : State) (i : Instr) (x : Reg) (level : Bool) :
    (∃ k : Fin 16, (s.reg x).toNat = k.val ∧ s.skipOnKey i x level = s.skipIf (s.key[k.val] == level)) ∨
    (15 < (s.reg x).toNat ∧ s.skipOnKey i x level = s.raiseInstr .keyIndexOutOfRange i) := by
  unfold State.skipOnKey
  split
  · rename_i h; exact .inl ⟨⟨_, h⟩, rfl, rfl⟩
  · rename_i h; exact .inr ⟨by omega, rfl⟩

/-- The double add of R161: the exact sum when it fits, else the fault. -/
theorem doubleAddIndex_cases (s : State) (x : Reg) :
    (s.index.toNat + (s.indexSum x).toNat < 65536 ∧ s.doubleAddIndex x = s.setIndex (s.index + s.indexSum x)) ∨
    (65536 ≤ s.index.toNat + (s.indexSum x).toNat ∧ s.doubleAddIndex x = s.raiseInstr .indexOverflow (.addIVx x)) := by
  unfold State.doubleAddIndex
  split
  · rename_i h; exact .inl ⟨h, rfl⟩
  · rename_i h; exact .inr ⟨by omega, rfl⟩

/-- The lowest pressed key is pressed and the keys below it are not (R193). -/
theorem lowestKey_eq_some (s : State) (k : Fin 16) :
    s.lowestKey = some k ↔ s.key[k.val] = true ∧ ∀ j : Fin 16, j.val < k.val → s.key[j.val] = false := by
  unfold State.lowestKey
  rw [List.find?_eq_some_iff_getElem]
  simp only [State.keyDown, List.getElem_finRange, List.length_finRange, Bool.not_eq_true']
  constructor
  · rintro ⟨hk, i, hi, rfl, hlt⟩
    exact ⟨hk, fun j hj => hlt j.val hj⟩
  · rintro ⟨hk, hlt⟩
    exact ⟨hk, k.val, k.isLt, rfl, fun j hj => hlt ⟨j, by omega⟩ hj⟩

theorem lowestKey_eq_none (s : State) : s.lowestKey = none ↔ ∀ k : Fin 16, s.key[k.val] = false := by
  simp [State.lowestKey, List.find?_eq_none, State.keyDown]

/-- Every meaning answers a next state. -/
theorem exec_answers_next (i : Instr) (s : State) : ∃ t, exec i s = .next t := by
  cases i <;> first
    | exact ⟨_, rfl⟩
    | (simp only [exec, execRet, execCallNnn]; split <;> exact ⟨_, rfl⟩)

/-- The four cases of a STEP (R92, R94, R96, R212). -/
theorem step_cases {s t : State} (h : step s = .next t) :
    (∃ f, s.fault = some f ∧ t = s) ∨
    (s.fault = none ∧ lastFetch < s.pc.toNat ∧ t = s.raise .pcOutOfRange s.pc 0#16) ∨
    (s.fault = none ∧ s.pc.toNat ≤ lastFetch ∧
      (∃ e, decode (s.fetchWord s.pc) = .error e) ∧
      t = s.advance.raise .unimplemented s.pc (s.fetchWord s.pc)) ∨
    (s.fault = none ∧ s.pc.toNat ≤ lastFetch ∧
      ∃ i, decode (s.fetchWord s.pc) = .ok i ∧ exec i s.advance = .next t) := by
  unfold step at h
  split at h
  · rename_i f hf
    cases h
    exact .inl ⟨f, hf, rfl⟩
  · rename_i hf
    split at h
    · rename_i hp
      unfold State.runWord at h
      split at h
      · rename_i e he
        cases h
        exact .inr (.inr (.inl ⟨hf, hp, ⟨e, he⟩, by simp⟩))
      · rename_i i hi
        exact .inr (.inr (.inr ⟨hf, hp, i, hi, h⟩))
    · rename_i hp
      cases h
      exact .inr (.inl ⟨hf, by omega, rfl⟩)

/-- A STEP answers a next state. -/
theorem step_answers_next (s : State) : ∃ t, step s = .next t := by
  unfold step
  split
  · exact ⟨_, rfl⟩
  · split
    · unfold State.runWord
      split
      · exact ⟨_, rfl⟩
      · exact exec_answers_next _ _
    · exact ⟨_, rfl⟩

end Sys2Proof.Machine
end

