-- ==== Sys2Proof/Laws/Exec.lean ====
section
/-! SUPPORT. What every instruction does to the fault latch, to memory and with the rnd input, said once over all constructors of `Instr`. -/

namespace Sys2Proof.Machine

/-- An instruction keeps the latch, or it takes a fault of its own and then changes nothing else (R214, R219). -/
theorem exec_keeps_latch_or_faults {i : Instr} {s t : State} (h : exec i s = .next t) :
    t.fault = s.fault ∨ ∃ c, c ≠ .pcOutOfRange ∧ c ≠ .unimplemented ∧ t = s.raiseInstr c i := by
  cases i
  case ret =>
    simp only [exec, execRet] at h; split at h <;> cases h
    · exact .inl rfl
    · exact .inr ⟨_, by decide, by decide, rfl⟩
  case callNnn =>
    simp only [exec, execCallNnn] at h; split at h <;> cases h
    · exact .inl rfl
    · exact .inr ⟨_, by decide, by decide, rfl⟩
  case skpVx x =>
    cases h
    rcases skipOnKey_cases s (.skpVx x) x true with ⟨k, _, h⟩ | ⟨_, h⟩ <;> rw [h]
    · exact .inl (by simp)
    · exact .inr ⟨_, by decide, by decide, rfl⟩
  case sknpVx x =>
    cases h
    rcases skipOnKey_cases s (.sknpVx x) x false with ⟨k, _, h⟩ | ⟨_, h⟩ <;> rw [h]
    · exact .inl (by simp)
    · exact .inr ⟨_, by decide, by decide, rfl⟩
  case ldVxK x => cases h; left; split <;> rfl
  case addIVx x =>
    cases h; split
    · exact .inl rfl
    · rcases doubleAddIndex_cases s x with ⟨_, h⟩ | ⟨_, h⟩ <;> rw [h]
      · exact .inl rfl
      · exact .inr ⟨_, by decide, by decide, rfl⟩
  case ldBVx x =>
    cases h
    rcases storeAtIndex_cases s (.ldBVx x) (decimalDigits (s.reg x)) with ⟨_, h⟩ | ⟨_, h⟩ <;> rw [h]
    · exact .inr ⟨_, by decide, by decide, rfl⟩
    · exact .inl (by simp)
  case ldMemIVx x =>
    cases h
    rcases storeAtIndex_cases s (.ldMemIVx x) (s.regsUpTo x) with ⟨_, h⟩ | ⟨_, h⟩ <;> rw [h]
    · exact .inr ⟨_, by decide, by decide, rfl⟩
    · exact .inl (by simp)
  all_goals (cases h; left; simp)

/-- An instruction keeps memory and the parameters, or it is a store at I (R61). -/
theorem exec_keeps_memory_or_stores {i : Instr} {s t : State} (h : exec i s = .next t) :
    (t.mem = s.mem ∧ t.config = s.config) ∨ ∃ bytes, bytes.length ≤ 16 ∧ t = s.storeAtIndex i bytes := by
  cases i
  case ret =>
    simp only [exec, execRet] at h; split at h <;> cases h <;> left
    · exact ⟨rfl, rfl⟩
    · rw [raiseInstr_eq]; exact ⟨rfl, rfl⟩
  case callNnn =>
    simp only [exec, execCallNnn] at h; split at h <;> cases h <;> left
    · exact ⟨rfl, rfl⟩
    · rw [raiseInstr_eq]; exact ⟨rfl, rfl⟩
  case skpVx x =>
    cases h
    rcases skipOnKey_cases s (.skpVx x) x true with ⟨k, _, h⟩ | ⟨_, h⟩ <;> rw [h] <;> left
    · simp
    · rw [raiseInstr_eq]; exact ⟨rfl, rfl⟩
  case sknpVx x =>
    cases h
    rcases skipOnKey_cases s (.sknpVx x) x false with ⟨k, _, h⟩ | ⟨_, h⟩ <;> rw [h] <;> left
    · simp
    · rw [raiseInstr_eq]; exact ⟨rfl, rfl⟩
  case ldVxK x => cases h; left; split <;> exact ⟨rfl, rfl⟩
  case addIVx x =>
    cases h; left; split
    · exact ⟨rfl, rfl⟩
    · rcases doubleAddIndex_cases s x with ⟨_, h⟩ | ⟨_, h⟩ <;> rw [h]
      · exact ⟨rfl, rfl⟩
      · rw [raiseInstr_eq]; exact ⟨rfl, rfl⟩
  case ldBVx x => cases h; exact .inr ⟨_, by simp [decimalDigits], rfl⟩
  case ldMemIVx x => cases h; exact .inr ⟨_, by have := x.isLt; simp; omega, rfl⟩
  all_goals (cases h; left; simp)

/-! ## The rnd input (R37) -/

section
variable (s : State) (r : Option Byte)

theorem setRnd_skipIf (c : Bool) : (s.setRnd r).skipIf c = (s.skipIf c).setRnd r := by cases c <;> rfl

theorem setRnd_raise (c : FaultCause) (a w : Word) : (s.setRnd r).raise c a w = (s.raise c a w).setRnd r := by
  simp only [State.raise, setRnd_fault]; split <;> rfl

theorem setRnd_raiseInstr (c : FaultCause) (i : Instr) : (s.setRnd r).raiseInstr c i = (s.raiseInstr c i).setRnd r :=
  setRnd_raise ..

theorem setRnd_skipOnKey (i : Instr) (x : Reg) (level : Bool) :
    (s.setRnd r).skipOnKey i x level = (s.skipOnKey i x level).setRnd r := by
  unfold State.skipOnKey
  simp only [setRnd_reg, setRnd_raiseInstr, setRnd_skipIf]
  split <;> rfl

theorem setRnd_storeAtIndex (i : Instr) (bytes : List Byte) :
    (s.setRnd r).storeAtIndex i bytes = (s.storeAtIndex i bytes).setRnd r := by
  unfold State.storeAtIndex
  rw [show (s.setRnd r).dataAddr 0 = s.dataAddr 0 from rfl, setRnd_raiseInstr]
  split
  · rfl
  · rw [writeBytes_eq, writeBytes_eq s]
    have h : ∀ (bytes : List Byte) (u : State) (a : Nat), ((u.setRnd r).writeBytes a bytes).mem = (u.writeBytes a bytes).mem := by
      intro bytes
      induction bytes with
      | nil => intros; rfl
      | cons b rest ih => intro u a; exact ih (u.writeByte a b) (a + 1)
    rw [h]; rfl

theorem setRnd_doubleAddIndex (x : Reg) : (s.setRnd r).doubleAddIndex x = (s.doubleAddIndex x).setRnd r := by
  unfold State.doubleAddIndex
  rw [setRnd_raiseInstr, show (s.setRnd r).indexSum x = s.indexSum x from rfl, setRnd_index]
  split <;> rfl

end

theorem setRnd_foldl_setReg (f : Nat → Reg) (g : Nat → Byte) (r : Option Byte) (l : List Nat) (s : State) :
    l.foldl (fun t k => t.setReg (f k) (g k)) (s.setRnd r) = (l.foldl (fun t k => t.setReg (f k) (g k)) s).setRnd r := by
  induction l generalizing s with
  | nil => rfl
  | cons k rest ih => exact ih (s.setReg (f k) (g k))

/-- Only RND reads the rnd input: any other instruction does the same whatever the input holds (R37). -/
theorem exec_setRnd {i : Instr} (hi : ∀ x nn, i ≠ .rndVxNn x nn) {s t : State} (r : Option Byte) (h : exec i s = .next t) :
    exec i (s.setRnd r) = .next (t.setRnd r) := by
  cases i
  case rndVxNn x nn => exact absurd rfl (hi x nn)
  case ret =>
    simp only [exec, execRet, setRnd_raiseInstr] at h ⊢
    split at h <;> cases h <;> rename_i hp
    · rw [dif_pos (by exact hp)]; rfl
    · rw [dif_neg (by exact hp)]
  case callNnn =>
    simp only [exec, execCallNnn, setRnd_raiseInstr] at h ⊢
    split at h <;> cases h <;> rename_i hp
    · rw [dif_pos (by exact hp)]; rfl
    · rw [dif_neg (by exact hp)]
  case seVxNn => cases h; exact congrArg _ (setRnd_skipIf ..)
  case sneVxNn => cases h; exact congrArg _ (setRnd_skipIf ..)
  case seVxVy => cases h; exact congrArg _ (setRnd_skipIf ..)
  case sneVxVy => cases h; exact congrArg _ (setRnd_skipIf ..)
  case skpVx => cases h; exact congrArg _ (setRnd_skipOnKey ..)
  case sknpVx => cases h; exact congrArg _ (setRnd_skipOnKey ..)
  case ldBVx => cases h; exact congrArg _ (setRnd_storeAtIndex ..)
  case ldMemIVx => cases h; exact congrArg _ (setRnd_storeAtIndex ..)
  case ldVxMemI => cases h; exact congrArg _ (setRnd_foldl_setReg ..)
  case ldVxK x =>
    cases h
    simp only [exec, execLdVxK]
    rw [show (s.setRnd r).lowestKey = s.lowestKey from rfl]
    split <;> rfl
  case addIVx x =>
    cases h
    simp only [exec, execAddIVx, setRnd_config, setRnd_doubleAddIndex]
    split <;> rfl
  all_goals (cases h; rfl)

/-- No instruction changes what the rnd input holds. -/
theorem exec_keeps_rnd {i : Instr} {s t : State} (h : exec i s = .next t) : t.rnd = s.rnd := by
  by_cases hi : ∀ x nn, i ≠ .rndVxNn x nn
  · have h' : exec i s = .next (t.setRnd s.rnd) := exec_setRnd hi s.rnd h
    rw [h] at h'
    exact (congrArg State.rnd (Host.Outcome.next.inj h')).trans rfl
  · simp only [not_forall, not_not] at hi
    obtain ⟨x, nn, rfl⟩ := hi
    cases h; rfl

/-- No STEP does either. -/
theorem step_keeps_rnd {s t : State} (h : step s = .next t) : t.rnd = s.rnd := by
  rcases step_cases h with ⟨_, _, rfl⟩ | ⟨_, _, rfl⟩ | ⟨_, _, _, rfl⟩ | ⟨_, _, _, _, h⟩
  · rfl
  · simp
  · simp
  · simpa using exec_keeps_rnd h

/-- The command STEP(rnd) is the cycle with the host's byte at the rnd input, and leaves the input as it was (R96, R37). -/
theorem stepWith_eq_next {r : Byte} {s t : State} :
    stepWith r s = .next t ↔ ∃ u, step (s.setRnd (some r)) = .next u ∧ t = u.setRnd s.rnd := by
  obtain ⟨u, hu⟩ := step_answers_next (s.setRnd (some r))
  simp [stepWith, hu, eq_comm]

end Sys2Proof.Machine
end

