-- ==== Sys2Proof/Laws/PerInstr.lean ====
section
/-! SUPPORT. Statements about every instruction as syntax, one lemma per constructor. The family EncodesItsRow: the word the encoder
writes is selected by the instruction's own row of spec/opcode_table.json, so the encoder, written from the formats of 30_encoding.md
R72, and the table's match and mask agree. -/

namespace Sys2Proof.Laws

/-! ## A word under the four masks of the table -/

theorem and_maskNNN (d : BitVec 4) (nnn : Addr12) : (d ++ nnn) &&& 0xF000#16 = d ++ 0x000#12 := by
  have h := BitVec.and_append (x₁ := d) (y₁ := nnn) (x₂ := 0xF#4) (y₂ := 0x000#12)
  rw [show d &&& 0xF#4 = d from BitVec.and_allOnes, BitVec.and_zero] at h
  exact h

theorem and_maskXNN (d x : BitVec 4) (nn : Byte) : (d ++ x ++ nn) &&& 0xF000#16 = d ++ 0x000#12 := by
  rw [append_nn_eq, and_maskNNN]

theorem and_maskXYN (d x y n : BitVec 4) : (d ++ x ++ y ++ n) &&& 0xF000#16 = d ++ 0x000#12 := by
  rw [append_xyn_eq, and_maskXNN]

theorem and_maskX (d x : BitVec 4) (nn : Byte) : (d ++ x ++ nn) &&& 0xF0FF#16 = d ++ 0x0#4 ++ nn := by
  have h := BitVec.and_append (x₁ := d ++ x) (y₁ := nn) (x₂ := 0xF#4 ++ 0x0#4) (y₂ := 0xFF#8)
  have h' := BitVec.and_append (x₁ := d) (y₁ := x) (x₂ := 0xF#4) (y₂ := 0x0#4)
  rw [h'] at h
  have e : ∀ b : BitVec 8, b &&& 255#8 = b := fun _ => BitVec.and_allOnes
  have e' : ∀ b : BitVec 4, b &&& 15#4 = b := fun _ => BitVec.and_allOnes
  rw [e, e', BitVec.and_zero] at h
  exact h

theorem and_maskXY (d x y n : BitVec 4) : (d ++ x ++ y ++ n) &&& 0xF00F#16 = d ++ 0x00#8 ++ n := by
  have h := BitVec.and_append (x₁ := d ++ x ++ y) (y₁ := n) (x₂ := 0xF#4 ++ 0x00#8) (y₂ := 0xF#4)
  have a : d ++ x ++ y = (d ++ (x ++ y) : BitVec 12) := BitVec.append_assoc
  have h' := BitVec.and_append (x₁ := d) (y₁ := x ++ y) (x₂ := 0xF#4) (y₂ := 0x00#8)
  have e' : ∀ b : BitVec 4, b &&& 15#4 = b := fun _ => BitVec.and_allOnes
  rw [a, h', e', e', BitVec.and_zero] at h
  rw [a]
  exact h

/-- The encoded word is selected by the instruction's row of the opcode table. -/
def EncodesItsRow.Statement (i : Instr) : Prop := i.row.selects (encode i) = true

theorem EncodesItsRow.nop : EncodesItsRow.Statement .nop := rfl
theorem EncodesItsRow.cls : EncodesItsRow.Statement .cls := rfl
theorem EncodesItsRow.ret : EncodesItsRow.Statement .ret := rfl
theorem EncodesItsRow.jpNnn (nnn : Addr12) : EncodesItsRow.Statement (.jpNnn nnn) := by
  simp only [EncodesItsRow.Statement, OpcodeRow.selects, Instr.row, encode, beq_iff_eq]
  exact and_maskNNN ..
theorem EncodesItsRow.callNnn (nnn : Addr12) : EncodesItsRow.Statement (.callNnn nnn) := by
  simp only [EncodesItsRow.Statement, OpcodeRow.selects, Instr.row, encode, beq_iff_eq]
  exact and_maskNNN ..
theorem EncodesItsRow.seVxNn (x : Reg) (nn : Byte) : EncodesItsRow.Statement (.seVxNn x nn) := by
  simp only [EncodesItsRow.Statement, OpcodeRow.selects, Instr.row, encode, beq_iff_eq]
  exact and_maskXNN ..
theorem EncodesItsRow.sneVxNn (x : Reg) (nn : Byte) : EncodesItsRow.Statement (.sneVxNn x nn) := by
  simp only [EncodesItsRow.Statement, OpcodeRow.selects, Instr.row, encode, beq_iff_eq]
  exact and_maskXNN ..
theorem EncodesItsRow.seVxVy (x : Reg) (y : Reg) : EncodesItsRow.Statement (.seVxVy x y) := by
  simp only [EncodesItsRow.Statement, OpcodeRow.selects, Instr.row, encode, beq_iff_eq]
  exact and_maskXY ..
theorem EncodesItsRow.ldVxNn (x : Reg) (nn : Byte) : EncodesItsRow.Statement (.ldVxNn x nn) := by
  simp only [EncodesItsRow.Statement, OpcodeRow.selects, Instr.row, encode, beq_iff_eq]
  exact and_maskXNN ..
theorem EncodesItsRow.addVxNn (x : Reg) (nn : Byte) : EncodesItsRow.Statement (.addVxNn x nn) := by
  simp only [EncodesItsRow.Statement, OpcodeRow.selects, Instr.row, encode, beq_iff_eq]
  exact and_maskXNN ..
theorem EncodesItsRow.ldVxVy (x : Reg) (y : Reg) : EncodesItsRow.Statement (.ldVxVy x y) := by
  simp only [EncodesItsRow.Statement, OpcodeRow.selects, Instr.row, encode, beq_iff_eq]
  exact and_maskXY ..
theorem EncodesItsRow.orVxVy (x : Reg) (y : Reg) : EncodesItsRow.Statement (.orVxVy x y) := by
  simp only [EncodesItsRow.Statement, OpcodeRow.selects, Instr.row, encode, beq_iff_eq]
  exact and_maskXY ..
theorem EncodesItsRow.andVxVy (x : Reg) (y : Reg) : EncodesItsRow.Statement (.andVxVy x y) := by
  simp only [EncodesItsRow.Statement, OpcodeRow.selects, Instr.row, encode, beq_iff_eq]
  exact and_maskXY ..
theorem EncodesItsRow.xorVxVy (x : Reg) (y : Reg) : EncodesItsRow.Statement (.xorVxVy x y) := by
  simp only [EncodesItsRow.Statement, OpcodeRow.selects, Instr.row, encode, beq_iff_eq]
  exact and_maskXY ..
theorem EncodesItsRow.addVxVy (x : Reg) (y : Reg) : EncodesItsRow.Statement (.addVxVy x y) := by
  simp only [EncodesItsRow.Statement, OpcodeRow.selects, Instr.row, encode, beq_iff_eq]
  exact and_maskXY ..
theorem EncodesItsRow.subVxVy (x : Reg) (y : Reg) : EncodesItsRow.Statement (.subVxVy x y) := by
  simp only [EncodesItsRow.Statement, OpcodeRow.selects, Instr.row, encode, beq_iff_eq]
  exact and_maskXY ..
theorem EncodesItsRow.shrVxVy (x : Reg) (y : Reg) : EncodesItsRow.Statement (.shrVxVy x y) := by
  simp only [EncodesItsRow.Statement, OpcodeRow.selects, Instr.row, encode, beq_iff_eq]
  exact and_maskXY ..
theorem EncodesItsRow.subnVxVy (x : Reg) (y : Reg) : EncodesItsRow.Statement (.subnVxVy x y) := by
  simp only [EncodesItsRow.Statement, OpcodeRow.selects, Instr.row, encode, beq_iff_eq]
  exact and_maskXY ..
theorem EncodesItsRow.shlVxVy (x : Reg) (y : Reg) : EncodesItsRow.Statement (.shlVxVy x y) := by
  simp only [EncodesItsRow.Statement, OpcodeRow.selects, Instr.row, encode, beq_iff_eq]
  exact and_maskXY ..
theorem EncodesItsRow.sneVxVy (x : Reg) (y : Reg) : EncodesItsRow.Statement (.sneVxVy x y) := by
  simp only [EncodesItsRow.Statement, OpcodeRow.selects, Instr.row, encode, beq_iff_eq]
  exact and_maskXY ..
theorem EncodesItsRow.ldINnn (nnn : Addr12) : EncodesItsRow.Statement (.ldINnn nnn) := by
  simp only [EncodesItsRow.Statement, OpcodeRow.selects, Instr.row, encode, beq_iff_eq]
  exact and_maskNNN ..
theorem EncodesItsRow.jpV0Nnn (nnn : Addr12) : EncodesItsRow.Statement (.jpV0Nnn nnn) := by
  simp only [EncodesItsRow.Statement, OpcodeRow.selects, Instr.row, encode, beq_iff_eq]
  exact and_maskNNN ..
theorem EncodesItsRow.rndVxNn (x : Reg) (nn : Byte) : EncodesItsRow.Statement (.rndVxNn x nn) := by
  simp only [EncodesItsRow.Statement, OpcodeRow.selects, Instr.row, encode, beq_iff_eq]
  exact and_maskXNN ..
theorem EncodesItsRow.drwVxVyN (x : Reg) (y : Reg) (n : Nibble) : EncodesItsRow.Statement (.drwVxVyN x y n) := by
  simp only [EncodesItsRow.Statement, OpcodeRow.selects, Instr.row, encode, beq_iff_eq]
  exact and_maskXYN ..
theorem EncodesItsRow.skpVx (x : Reg) : EncodesItsRow.Statement (.skpVx x) := by
  simp only [EncodesItsRow.Statement, OpcodeRow.selects, Instr.row, encode, beq_iff_eq]
  exact and_maskX ..
theorem EncodesItsRow.sknpVx (x : Reg) : EncodesItsRow.Statement (.sknpVx x) := by
  simp only [EncodesItsRow.Statement, OpcodeRow.selects, Instr.row, encode, beq_iff_eq]
  exact and_maskX ..
theorem EncodesItsRow.ldVxDt (x : Reg) : EncodesItsRow.Statement (.ldVxDt x) := by
  simp only [EncodesItsRow.Statement, OpcodeRow.selects, Instr.row, encode, beq_iff_eq]
  exact and_maskX ..
theorem EncodesItsRow.ldVxK (x : Reg) : EncodesItsRow.Statement (.ldVxK x) := by
  simp only [EncodesItsRow.Statement, OpcodeRow.selects, Instr.row, encode, beq_iff_eq]
  exact and_maskX ..
theorem EncodesItsRow.ldDtVx (x : Reg) : EncodesItsRow.Statement (.ldDtVx x) := by
  simp only [EncodesItsRow.Statement, OpcodeRow.selects, Instr.row, encode, beq_iff_eq]
  exact and_maskX ..
theorem EncodesItsRow.ldStVx (x : Reg) : EncodesItsRow.Statement (.ldStVx x) := by
  simp only [EncodesItsRow.Statement, OpcodeRow.selects, Instr.row, encode, beq_iff_eq]
  exact and_maskX ..
theorem EncodesItsRow.addIVx (x : Reg) : EncodesItsRow.Statement (.addIVx x) := by
  simp only [EncodesItsRow.Statement, OpcodeRow.selects, Instr.row, encode, beq_iff_eq]
  exact and_maskX ..
theorem EncodesItsRow.ldFVx (x : Reg) : EncodesItsRow.Statement (.ldFVx x) := by
  simp only [EncodesItsRow.Statement, OpcodeRow.selects, Instr.row, encode, beq_iff_eq]
  exact and_maskX ..
theorem EncodesItsRow.ldBVx (x : Reg) : EncodesItsRow.Statement (.ldBVx x) := by
  simp only [EncodesItsRow.Statement, OpcodeRow.selects, Instr.row, encode, beq_iff_eq]
  exact and_maskX ..
theorem EncodesItsRow.ldMemIVx (x : Reg) : EncodesItsRow.Statement (.ldMemIVx x) := by
  simp only [EncodesItsRow.Statement, OpcodeRow.selects, Instr.row, encode, beq_iff_eq]
  exact and_maskX ..
theorem EncodesItsRow.ldVxMemI (x : Reg) : EncodesItsRow.Statement (.ldVxMemI x) := by
  simp only [EncodesItsRow.Statement, OpcodeRow.selects, Instr.row, encode, beq_iff_eq]
  exact and_maskX ..

end Sys2Proof.Laws
end

