-- ==== Sys2Proof/Tests/Slice0.lean ====
section
/-! SUPPORT. The model's own tests. A decoding is shown on a word written out bit by bit from 30_encoding.md R76; a step on a word placed
at the reset pc, with the expected value taken from the vector of 95_test_vectors.md that the comment names; and every statement that has
hypotheses gets a state and operands that meet them. -/

namespace Sys2Proof.Tests

open Sys2Proof Sys2Proof.Machine

/-! ## Illegal words: one word of each line of R77, refused by its check and by the decoder (vectors T5 to T14) -/

theorem test_illegal_zero : illegalZero 0x0123 = true ∧ decode 0x0123#16 = .error (.unrecognized 0x0123) := by decide
theorem test_illegal_five : illegalFive 0x5121 = true ∧ decode 0x5121#16 = .error (.unrecognized 0x5121) := by decide
theorem test_illegal_eight : illegalEight 0x800F = true ∧ decode 0x800F#16 = .error (.unrecognized 0x800F) := by decide
theorem test_illegal_nine : illegalNine 0x9001 = true ∧ decode 0x9001#16 = .error (.unrecognized 0x9001) := by decide
theorem test_illegal_e : illegalE 0xE09F = true ∧ decode 0xE09F#16 = .error (.unrecognized 0xE09F) := by decide
theorem test_illegal_f : illegalF 0xFFFF = true ∧ decode 0xFFFF#16 = .error (.unrecognized 0xFFFF) := by decide
theorem test_legal_words : legalWord 0x00EE#16 = true ∧ legalWord 0x8FFE#16 = true ∧ legalWord 0x5120#16 = true := by decide
theorem test_decode_truncated : decodeBytes [0x12] = .error (.truncated 1) ∧ decodeBytes [] = .error (.truncated 0) := by decide
theorem test_decode_takes_two_bytes : decodeBytes [0x60, 0xFE, 0x22] = .ok (.ldVxNn 0x0 0xFE, [0x22]) := by decide
theorem test_table_word : decodeTableWord 16 0xD012 = some (.drwVxVyN 0 1 2) ∧ decodeTableWord 16 0x8008 = none := by decide

/-! ## Every constructor's decoding, from a word written out in bits (R76): x = 1010, y = 0110, and distinct immediates -/

theorem test_decode_nop : decode 0b0000_0000_0000_0000#16 = .ok .nop := by decide
theorem test_decode_cls : decode 0b0000_0000_1110_0000#16 = .ok .cls := by decide
theorem test_decode_ret : decode 0b0000_0000_1110_1110#16 = .ok .ret := by decide
theorem test_decode_jpNnn : decode 0b0001_1001_0110_0001#16 = .ok (.jpNnn 0x961) := by decide
theorem test_decode_callNnn : decode 0b0010_1001_0110_0001#16 = .ok (.callNnn 0x961) := by decide
theorem test_decode_seVxNn : decode 0b0011_1010_1100_0101#16 = .ok (.seVxNn 0xA 0xC5) := by decide
theorem test_decode_sneVxNn : decode 0b0100_1010_1100_0101#16 = .ok (.sneVxNn 0xA 0xC5) := by decide
theorem test_decode_seVxVy : decode 0b0101_1010_0110_0000#16 = .ok (.seVxVy 0xA 0x6) := by decide
theorem test_decode_ldVxNn : decode 0b0110_1010_1100_0101#16 = .ok (.ldVxNn 0xA 0xC5) := by decide
theorem test_decode_addVxNn : decode 0b0111_1010_1100_0101#16 = .ok (.addVxNn 0xA 0xC5) := by decide
theorem test_decode_ldVxVy : decode 0b1000_1010_0110_0000#16 = .ok (.ldVxVy 0xA 0x6) := by decide
theorem test_decode_orVxVy : decode 0b1000_1010_0110_0001#16 = .ok (.orVxVy 0xA 0x6) := by decide
theorem test_decode_andVxVy : decode 0b1000_1010_0110_0010#16 = .ok (.andVxVy 0xA 0x6) := by decide
theorem test_decode_xorVxVy : decode 0b1000_1010_0110_0011#16 = .ok (.xorVxVy 0xA 0x6) := by decide
theorem test_decode_addVxVy : decode 0b1000_1010_0110_0100#16 = .ok (.addVxVy 0xA 0x6) := by decide
theorem test_decode_subVxVy : decode 0b1000_1010_0110_0101#16 = .ok (.subVxVy 0xA 0x6) := by decide
theorem test_decode_shrVxVy : decode 0b1000_1010_0110_0110#16 = .ok (.shrVxVy 0xA 0x6) := by decide
theorem test_decode_subnVxVy : decode 0b1000_1010_0110_0111#16 = .ok (.subnVxVy 0xA 0x6) := by decide
theorem test_decode_shlVxVy : decode 0b1000_1010_0110_1110#16 = .ok (.shlVxVy 0xA 0x6) := by decide
theorem test_decode_sneVxVy : decode 0b1001_1010_0110_0000#16 = .ok (.sneVxVy 0xA 0x6) := by decide
theorem test_decode_ldINnn : decode 0b1010_1001_0110_0001#16 = .ok (.ldINnn 0x961) := by decide
theorem test_decode_jpV0Nnn : decode 0b1011_1001_0110_0001#16 = .ok (.jpV0Nnn 0x961) := by decide
theorem test_decode_rndVxNn : decode 0b1100_1010_1100_0101#16 = .ok (.rndVxNn 0xA 0xC5) := by decide
theorem test_decode_drwVxVyN : decode 0b1101_1010_0110_0011#16 = .ok (.drwVxVyN 0xA 0x6 0x3) := by decide
theorem test_decode_skpVx : decode 0b1110_1010_1001_1110#16 = .ok (.skpVx 0xA) := by decide
theorem test_decode_sknpVx : decode 0b1110_1010_1010_0001#16 = .ok (.sknpVx 0xA) := by decide
theorem test_decode_ldVxDt : decode 0b1111_1010_0000_0111#16 = .ok (.ldVxDt 0xA) := by decide
theorem test_decode_ldVxK : decode 0b1111_1010_0000_1010#16 = .ok (.ldVxK 0xA) := by decide
theorem test_decode_ldDtVx : decode 0b1111_1010_0001_0101#16 = .ok (.ldDtVx 0xA) := by decide
theorem test_decode_ldStVx : decode 0b1111_1010_0001_1000#16 = .ok (.ldStVx 0xA) := by decide
theorem test_decode_addIVx : decode 0b1111_1010_0001_1110#16 = .ok (.addIVx 0xA) := by decide
theorem test_decode_ldFVx : decode 0b1111_1010_0010_1001#16 = .ok (.ldFVx 0xA) := by decide
theorem test_decode_ldBVx : decode 0b1111_1010_0011_0011#16 = .ok (.ldBVx 0xA) := by decide
theorem test_decode_ldMemIVx : decode 0b1111_1010_0101_0101#16 = .ok (.ldMemIVx 0xA) := by decide
theorem test_decode_ldVxMemI : decode 0b1111_1010_0110_0101#16 = .ok (.ldVxMemI 0xA) := by decide

/-! ## One step each, from the reset state with registers set and the word at 0x200 -/

/-- The reset state with some registers set. -/
def withRegs (l : List (Reg × Byte)) : State := l.foldl (fun s p => s.setReg p.1 p.2) State.reset

/-- The state after one STEP of the word w; a stop would leave the state as it was. -/
def stepped (s : State) (w : Nat) : State :=
  match step (s.withFetchWord 16 w) with
  | .next t => t
  | .fault _ => s
  | .refused _ => s

/-- The same with the host's byte r at the rnd input. -/
def steppedWith (r : Byte) (s : State) (w : Nat) : State :=
  match runCommand (.step r) (s.withFetchWord 16 w) with
  | .next t => t
  | .fault _ => s
  | .refused _ => s

/-- The latch record of a MachineFault. -/
def machineFault (cause : FaultCause) (addr word : Word) : Option FaultRecord := some ⟨.machineFault, cause, addr, word⟩

/-- A state with the return stack in use up to n, entry k holding 0x400 + k. -/
def withStack (n : Fin 17) : State := { State.reset with sp := n, stack := Vector.ofFn fun k => BitVec.ofNat 16 (0x400 + k.val) }

/-- The reset state with a parameter changed. -/
def withConfig (c : Config) (l : List (Reg × Byte)) : State := { withRegs l with config := c }

/-- SHIFT_SOURCE = VY. -/
def shiftVy : Config := { Config.default with shiftSource := .vy }

/-- FX1E_MODE = REFERENCE_DOUBLE_ADD. -/
def doubleAdd : Config := { Config.default with fx1eMode := .referenceDoubleAdd }

/-- Vector T1. -/
theorem test_nop : (stepped State.reset 0x0000).pc = 0x202#16 := by decide
/-- Vector T105. -/
theorem test_cls : (stepped (State.reset.setFb (Vector.replicate 32 0xFFFFFFFFFFFFFFFF#64)) 0x00E0).fb = Vector.replicate 32 0#64 := by decide
/-- Vector T25. -/
theorem test_ret_pops : (stepped (withStack 1) 0x00EE).pc = 0x400#16 ∧ (stepped (withStack 1) 0x00EE).sp = 0 := by decide
/-- Vector T26. -/
theorem test_ret_underflow :
    (stepped State.reset 0x00EE).fault = machineFault .stackUnderflow 0x200 0x00EE ∧
    (stepped State.reset 0x00EE).pc = 0x202#16 := by decide
/-- Vector T20. -/
theorem test_jp : (stepped State.reset 0x1234).pc = 0x234#16 := by decide
/-- Vector T23. -/
theorem test_call_last_slot : (stepped (withStack 15) 0x2ABC).stack[15] = 0x202#16 ∧ (stepped (withStack 15) 0x2ABC).pc = 0xABC#16 := by decide
/-- Vector T24. -/
theorem test_call_overflow :
    (stepped (withStack 16) 0x2ABC).fault = machineFault .stackOverflow 0x200 0x2ABC ∧
    (stepped (withStack 16) 0x2ABC).stack = (withStack 16).stack := by decide
/-- Vector T27. -/
theorem test_se_nn_skips : (stepped (withRegs [(4, 0x80)]) 0x3480).pc = 0x204#16 := by decide
/-- Vector T28. -/
theorem test_se_nn_stays : (stepped (withRegs [(4, 0x81)]) 0x3480).pc = 0x202#16 := by decide
/-- Vector T29. -/
theorem test_sne_nn_skips : (stepped (withRegs [(4, 0x81)]) 0x4480).pc = 0x204#16 := by decide
/-- Vector T30. -/
theorem test_sne_nn_stays : (stepped (withRegs [(4, 0x80)]) 0x4480).pc = 0x202#16 := by decide
/-- Vector T31. -/
theorem test_se_skips : (stepped (withRegs [(1, 0x33), (2, 0x33)]) 0x5120).pc = 0x204#16 := by decide
/-- Vector T32. -/
theorem test_se_stays : (stepped (withRegs [(1, 0x33), (2, 0x34)]) 0x5120).pc = 0x202#16 := by decide
/-- Vector T34. -/
theorem test_sne_skips : (stepped (withRegs [(1, 0x33), (2, 0x34)]) 0x9120).pc = 0x204#16 := by decide
/-- Vector T35. -/
theorem test_sne_same_register : (stepped (withRegs [(1, 0x33)]) 0x9110).pc = 0x202#16 := by decide
/-- Vector T37. -/
theorem test_jp_v0_not_masked : (stepped (withRegs [(0, 0xFF)]) 0xBFFF).pc = 0x10FE#16 := by decide
/-- Vector T41. -/
theorem test_ld_nn : (stepped State.reset 0x6AFF).v = (withRegs [(0xA, 0xFF)]).v := by decide
/-- Vector T42. -/
theorem test_add_nn_no_flag : (stepped (withRegs [(3, 0xFF), (0xF, 0x5A)]) 0x7301).v = (withRegs [(0xF, 0x5A)]).v := by decide
/-- Vector T44. -/
theorem test_ld_reg : (stepped (withRegs [(1, 0x12), (2, 0x34)]) 0x8120).v = (withRegs [(1, 0x34), (2, 0x34)]).v := by decide
/-- Vector T45. -/
theorem test_or : (stepped (withRegs [(1, 0x0F), (2, 0xF0), (0xF, 5)]) 0x8121).v = (withRegs [(1, 0xFF), (2, 0xF0), (0xF, 5)]).v := by decide
/-- Vector T46. -/
theorem test_and : (stepped (withRegs [(1, 0x3C), (2, 0x0F), (0xF, 5)]) 0x8122).v = (withRegs [(1, 0x0C), (2, 0x0F), (0xF, 5)]).v := by decide
/-- Vector T47. -/
theorem test_xor : (stepped (withRegs [(1, 0x3C), (2, 0x0F), (0xF, 5)]) 0x8123).v = (withRegs [(1, 0x33), (2, 0x0F), (0xF, 5)]).v := by decide
/-- Vector T49. -/
theorem test_add_carry : (stepped (withRegs [(1, 0xFF), (2, 0x01)]) 0x8124).v = (withRegs [(2, 0x01), (0xF, 1)]).v := by decide
/-- Vector T54. -/
theorem test_add_to_vf : (stepped (withRegs [(1, 0x01), (0xF, 0x01)]) 0x8F14).v = (withRegs [(1, 0x01)]).v := by decide
/-- Vector T55. -/
theorem test_sub_borrow : (stepped (withRegs [(1, 0x05), (2, 0x07)]) 0x8125).v = (withRegs [(1, 0xFE), (2, 0x07)]).v := by decide
/-- Vector T57. -/
theorem test_sub_equal : (stepped (withRegs [(1, 0x05), (2, 0x05)]) 0x8125).v = (withRegs [(2, 0x05), (0xF, 1)]).v := by decide
/-- Vector T63. -/
theorem test_shr_vx : (stepped (withRegs [(1, 0x01), (2, 0x80)]) 0x8126).v = (withRegs [(2, 0x80), (0xF, 1)]).v := by decide
/-- Vector T63. -/
theorem test_shr_vy : (stepped (withConfig shiftVy [(1, 0x01), (2, 0x80)]) 0x8126).v = (withRegs [(1, 0x40), (2, 0x80)]).v := by decide
/-- Vector T59. -/
theorem test_subn_no_borrow : (stepped (withRegs [(1, 0x05), (2, 0x07)]) 0x8127).v = (withRegs [(1, 0x02), (2, 0x07), (0xF, 1)]).v := by decide
/-- Vector T73. -/
theorem test_subn_vf_vf : (stepped (withRegs [(0xF, 0x81)]) 0x8FF7).v = (withRegs [(0xF, 1)]).v := by decide
/-- Vector T69. -/
theorem test_shl_vx : (stepped (withRegs [(1, 0xFF), (2, 0x00)]) 0x812E).v = (withRegs [(1, 0xFE), (0xF, 1)]).v := by decide
/-- Vector T68. -/
theorem test_shl_vy : (stepped (withConfig shiftVy [(1, 0x80), (2, 0x01)]) 0x812E).v = (withRegs [(1, 0x02), (2, 0x01)]).v := by decide
/-- Vector T77. -/
theorem test_ld_i : (stepped State.reset 0xAFFF).index = 0x0FFF#16 := by decide
/-- Vector T74. -/
theorem test_rnd_masks : steppedWith 0xAB State.reset 0xC30F = ((State.reset.withFetchWord 16 0xC30F).setReg 3 0x0B).setPc 0x202 := by decide
/-- Vector T75. -/
theorem test_rnd_zero_mask : (steppedWith 0xFF (withRegs [(3, 0x77)]) 0xC300).reg 3 = 0#8 := by decide
/-- A STEP without a host's byte counts its draw (log 2). -/
theorem test_rnd_counts_draw : (stepped (withRegs [(3, 0x77)]) 0xC300).draws = 1 := by decide
/-- Vector X7. -/
theorem test_drw_wraps :
    (stepped (((withRegs [(0, 0x3F), (1, 0x1F)]).writeBytes 0x300 [0xC0, 0xC0]).setIndex 0x300) 0xD012).fb = ((Vector.replicate 32 0#64).set 0 0x8000000000000001#64).set 31 0x8000000000000001#64 := by decide
/-- Vector T112. -/
theorem test_drw_collides :
    (stepped (((State.reset.writeBytes 0x300 [0x81]).setIndex 0x300).setFb ((Vector.replicate 32 0#64).set 0 1#64)) 0xD011).fb[0] = 0x80#64 ∧
    (stepped (((State.reset.writeBytes 0x300 [0x81]).setIndex 0x300).setFb ((Vector.replicate 32 0#64).set 0 1#64)) 0xD011).reg 0xF = 1#8 := by decide
/-- Vector T123. -/
theorem test_skp_skips : (stepped ((withRegs [(0, 0x03)]).setKey 3 true) 0xE09E).pc = 0x204#16 := by decide
/-- Vector T127. -/
theorem test_skp_faults : (stepped (withRegs [(0, 0x10)]) 0xE09E).fault = machineFault .keyIndexOutOfRange 0x200 0xE09E := by decide
/-- Vector T125. -/
theorem test_sknp_skips : (stepped (withRegs [(0, 0x03)]) 0xE0A1).pc = 0x204#16 := by decide
/-- Vector T126. -/
theorem test_sknp_stays : (stepped ((withRegs [(0, 0x03)]).setKey 3 true) 0xE0A1).pc = 0x202#16 := by decide
/-- Vector T119. -/
theorem test_ld_vx_dt : (stepped (State.reset.setDt 0x2A) 0xF307).v = (withRegs [(3, 0x2A)]).v := by decide
/-- Vector T129. -/
theorem test_key_wait_lowest : (stepped ((State.reset.setKey 7 true).setKey 3 true) 0xF20A).v = (withRegs [(2, 0x03)]).v := by decide
/-- Vector T130. -/
theorem test_key_wait_spins :
    (stepped (withRegs [(2, 0x99)]) 0xF20A).pc = 0x200#16 ∧
    (stepped (withRegs [(2, 0x99)]) 0xF20A).v = (withRegs [(2, 0x99)]).v := by decide
/-- Vector T120. -/
theorem test_ld_dt : (stepped (withRegs [(3, 0x3C)]) 0xF315).dt = 0x3C#8 := by decide
/-- Vector T121. -/
theorem test_ld_st : (stepped (withRegs [(3, 0x05)]) 0xF318).st = 0x05#8 := by decide
/-- Vector T80. -/
theorem test_add_i_wraps : (stepped ((withRegs [(1, 0x01)]).setIndex 0xFFFF) 0xF11E).index = 0x0000#16 := by decide
/-- Vector T83. -/
theorem test_add_i_double_overflow :
    (stepped ((withConfig doubleAdd [(1, 0x02)]).setIndex 0x7FFF) 0xF11E).fault = machineFault .indexOverflow 0x200 0xF11E := by decide
/-- Vector T82. -/
theorem test_add_i_double : (stepped ((withConfig doubleAdd [(1, 0x01)]).setIndex 0x7FFF) 0xF11E).index = 0xFFFF#16 := by decide
/-- Vector T88. -/
theorem test_ld_f : (stepped (withRegs [(0, 0xFF)]) 0xF029).index = 0x04FB#16 := by decide
/-- Vector T93. -/
theorem test_ld_b :
    (stepped ((withRegs [(7, 0x80)]).setIndex 0x300) 0xF733).mem = [(0x200, 0xF7), (0x201, 0x33), (0x300, 1), (0x301, 2), (0x302, 8)] := by decide
/-- Vector T97. -/
theorem test_ld_b_font :
    (stepped ((withRegs [(7, 0xFF)]).setIndex 0xFFE) 0xF733).fault = machineFault .fontRegionWrite 0x200 0xF733 ∧
    (stepped ((withRegs [(7, 0xFF)]).setIndex 0xFFE) 0xF733).mem = [(0x200, 0xF7), (0x201, 0x33)] := by decide
/-- Vector T98. -/
theorem test_store_regs :
    (stepped ((withRegs [(0, 0x11), (1, 0x22), (2, 0x33), (3, 0x44)]).setIndex 0x300) 0xF355).mem = [(0x200, 0xF3), (0x201, 0x55), (0x300, 0x11), (0x301, 0x22), (0x302, 0x33), (0x303, 0x44)] := by decide
/-- Vector T100. -/
theorem test_store_regs_font :
    (stepped ((withRegs [(0, 0x11)]).setIndex 0xFF8) 0xF855).fault = machineFault .fontRegionWrite 0x200 0xF855 ∧
    (stepped ((withRegs [(0, 0x11)]).setIndex 0xFF8) 0xF855).mem = [(0x200, 0xF8), (0x201, 0x55)] := by decide
/-- Vector T102. -/
theorem test_load_regs_glyph : (stepped State.reset 0xF465).v = (withRegs [(0, 0xF0), (1, 0x90), (2, 0x90), (3, 0x90), (4, 0xF0)]).v := by decide
/-- Vector T103. -/
theorem test_load_regs_wraps : (stepped ((State.reset.writeBytes 0x300 [0x5A]).setIndex 0x1300) 0xF065).v = (withRegs [(0, 0x5A)]).v := by decide
/-- Vector T5. -/
theorem test_illegal_word :
    (stepped State.reset 0x0123).fault = some ⟨.unimplementedOpcode, .unimplemented, 0x200, 0x0123⟩ ∧
    (stepped State.reset 0x0123).pc = 0x202#16 := by decide
/-- Vector T3. -/
theorem test_fetch_out_of_range :
    step (State.reset.setPc 0xFFF) = .next { State.reset.setPc 0xFFF with fault := machineFault .pcOutOfRange 0x0FFF 0 } := rfl

/-! ## The host commands -/

/-- Vectors T115 and T116. -/
theorem test_tick : ((State.reset.setDt 5).setSt 2).doTick = (State.reset.setDt 4).setSt 1 ∧
    (response .tick (State.reset.setSt 1) (State.reset.setSt 1).doTick).soundStop = true := by decide
/-- Vector T113: both timers stay at 0. -/
theorem test_tick_at_zero : State.reset.doTick = State.reset := by decide
/-- Vectors T133 and T135. -/
theorem test_set_key : (State.reset.doSetKey 5 true).key[5] = true ∧
    ((State.reset.setPc 0x234).doSetKey 16 true).fault = machineFault .keyIndexOutOfRange 0x234 0x0010 := by decide
/-- Vector T140. -/
theorem test_load : (State.reset.doLoad [0xAB, 0xCD]).mem = [(0x200, 0xAB), (0x201, 0xCD)] := by decide
/-- Vector T138. -/
theorem test_load_out_of_bounds : (State.reset.doLoad (List.replicate 3585 0)).fault = machineFault .loadOutOfBounds 0x200 0x0E01 := by
  rw [State.doLoad, if_neg (by rw [List.length_replicate]; decide), raise_fault, List.length_replicate]
  rfl
/-- Vector T142. -/
theorem test_read_fb : (State.reset.setFb ((Vector.replicate 32 0#64).set 0 2#64)).framebufferBits.take 3 = [false, true, false] := by decide
/-- Vector T17. -/
theorem test_reset : (stepped State.reset 0x0123).doReset = State.reset := by decide

/-! ## States and operands that meet each statement's hypotheses, at the ends of their ranges -/

theorem witness_EncodeOfDecode : decode 0xFA65#16 = .ok (.ldVxMemI 0xA) := by decide
theorem witness_DecodeRefusesExactlyIllegalWords : legalWord 0x8FFE#16 = true ∧ legalWord 0x8FF8#16 = false := by decide
theorem witness_OpcodeRowSelectsDecodedWord : 0xFA65#16 &&& (Instr.ldVxMemI 0xA).row.mask = (Instr.ldVxMemI 0xA).row.bits := by decide

/-- A state about to fetch w at the highest address a fetch accepts. -/
def atTop (w : Nat) : State := (State.reset.setPc 0xFFE).withFetchWord 16 w

theorem witness_StepRunsDecodedInstruction : (atTop 0x6A3E).fault = none ∧ (atTop 0x6A3E).pc.toNat ≤ 0xFFE ∧
    decode ((atTop 0x6A3E).readByte (atTop 0x6A3E).pc.toNat ++ (atTop 0x6A3E).readByte ((atTop 0x6A3E).pc.toNat + 1))
      = .ok (.ldVxNn 0xA 0x3E) := by decide
theorem witness_HostChoosesRandomByte : (atTop 0xC3F0).fault = none ∧ (atTop 0xC3F0).pc.toNat ≤ 0xFFE ∧
    (atTop 0xC3F0).readByte (atTop 0xC3F0).pc.toNat ++ (atTop 0xC3F0).readByte ((atTop 0xC3F0).pc.toNat + 1) = 0xC#4 ++ 0x3#4 ++ 0xF0#8 := by
  decide
theorem witness_StepIsCommandWithFreeByte : (atTop 0xC3F0).rnd = none := by decide
theorem witness_RandomIsMasked : (State.reset.setRnd (some 0xAB)).rnd = some 0xAB ∧ State.reset.rnd = none := by decide
theorem witness_PlacedWordRunsNext : decode 0x1234#16 = .ok (.jpNnn 0x234) := by decide
theorem witness_FetchOutOfRangeFaults : (State.reset.setPc 0xFFF).fault = none ∧ 0xFFE < (State.reset.setPc 0xFFF).pc.toNat := by decide
theorem witness_IllegalWordFaults : (atTop 0x5121).fault = none ∧ (atTop 0x5121).pc.toNat ≤ 0xFFE ∧
    legalWord ((atTop 0x5121).readByte (atTop 0x5121).pc.toNat ++ (atTop 0x5121).readByte ((atTop 0x5121).pc.toNat + 1)) = false := by
  decide
theorem witness_FaultedStepChangesNothing :
    (stepped State.reset 0x0123).fault = some ⟨.unimplementedOpcode, .unimplemented, 0x200, 0x0123⟩ := by decide
theorem witness_SelfJumpIsFixedPoint : ((State.reset.setPc 0xFFE).withFetchWord 16 0x1FFE).cleanEnd :=
  ⟨by decide, by decide, 0xFFE, by decide, by decide⟩

/-- V0 = 12, V1 = 34, I = pc = 0x300: what Fx55 stores is fetched next. -/
def storesAhead : State := ((withRegs [(0, 0x12), (1, 0x34)]).setIndex 0x300).setPc 0x300

theorem witness_NextFetchSeesStoredBytes : ∃ t, storesAhead.fault = none ∧ exec (.ldMemIVx 1) storesAhead = .next t ∧ t.fault = none ∧
    0 < (1 : Reg).toNat ∧ t.pc.toNat ≤ 0xFFE ∧ (storesAhead.index.toNat + 0) % 4096 = t.pc.toNat :=
  ⟨_, rfl, rfl, by decide, by decide, by decide, by decide⟩
theorem witness_NopChangesNothing : (0x001 : Addr12) ≠ 0x000 ∧ (0x0EF : Addr12) ≠ 0x0E0 ∧ (0xFFF : Addr12) ≠ 0x0EE := by decide
theorem witness_JumpSetsPc : State.reset.fault = none ∧ 0xFFE < (0xFFF : Addr12).toNat := by decide
theorem witness_OffsetJumpAddsV0 : (withRegs [(0, 1)]).fault = none ∧ 0xFFE < ((withRegs [(0, 1)]).reg 0#4).toNat + (0xFFE : Addr12).toNat ∧
    ¬ 0xFFE < ((withRegs [(0, 1)]).reg 0#4).toNat + (0xFFD : Addr12).toNat := by decide
theorem witness_ReturnPopsPc : (withStack 1).sp.val = (0 : Fin 16).val + 1 ∧ (withStack 16).sp.val = (15 : Fin 16).val + 1 ∧
    State.reset.sp.val = 0 := by decide
theorem witness_CallPushesReturnAddress : State.reset.sp.val = (0 : Fin 16).val ∧ (withStack 15).sp.val = (15 : Fin 16).val ∧
    (withStack 16).sp.val = 16 := by decide
theorem witness_ReturnAfterCallRestoresPc : ∃ t, (withStack 15).sp.val < 16 ∧ exec (.callNnn 0xABC) (withStack 15) = .next t :=
  ⟨_, by decide, rfl⟩
theorem witness_ImmediateSkips : (withRegs [(4, 0x80)]).reg 4 = 0x80#8 ∧ (withRegs [(4, 0x81)]).reg 4 ≠ 0x80#8 := by decide
theorem witness_RegisterSkips : (withRegs [(1, 0x33), (2, 0x33)]).reg 1 = (withRegs [(1, 0x33), (2, 0x33)]).reg 2 ∧
    (withRegs [(1, 0x33)]).reg 1 ≠ (withRegs [(1, 0x33)]).reg 2 := by decide
theorem witness_RegisterSkips_illegal : (0xF : Nibble) ≠ 0x0#4 ∧ (0x1 : Nibble) ≠ 0x0#4 := by decide
theorem witness_AddSetsCarry : (0xE : Reg) ≠ 0xF#4 ∧ 256 ≤ ((withRegs [(1, 0xFF), (2, 1)]).reg 1).toNat + ((withRegs [(1, 0xFF), (2, 1)]).reg 2).toNat ∧
    ¬ 256 ≤ ((withRegs [(1, 0xFE), (2, 1)]).reg 1).toNat + ((withRegs [(1, 0xFE), (2, 1)]).reg 2).toNat := by decide
theorem witness_SubtractSetsNotBorrow : (0xE : Reg) ≠ 0xF#4 ∧
    ((withRegs [(1, 5), (2, 5)]).reg 2).toNat ≤ ((withRegs [(1, 5), (2, 5)]).reg 1).toNat ∧
    ¬ ((withRegs [(1, 5), (2, 6)]).reg 2).toNat ≤ ((withRegs [(1, 5), (2, 6)]).reg 1).toNat := by decide
theorem witness_ShiftsSetShiftedOutBit : (0xE : Reg) ≠ 0xF#4 ∧
    ((withRegs [(1, 0x81)]).config.shiftSource = .vx ∧ 0x81#8 = (withRegs [(1, 0x81)]).reg 1) ∧
    ((withConfig shiftVy [(2, 0x81)]).config.shiftSource = .vy ∧ 0x81#8 = (withConfig shiftVy [(2, 0x81)]).reg 2) := by decide
theorem witness_IndexAdd_single : State.reset.config.fx1eMode = .singleAdd := by decide

/-- FX1E_MODE = REFERENCE_DOUBLE_ADD with I = 0x7FFF and V1 = b. -/
def doubling (b : Byte) : State := (withConfig doubleAdd [(1, b)]).setIndex 0x7FFF

theorem witness_IndexAdd_double : (doubling 1).config.fx1eMode = .referenceDoubleAdd ∧
    (doubling 1).index.toNat + ((doubling 1).index.toNat + ((doubling 1).reg 1).toNat) % 65536 < 65536 := by decide
theorem witness_IndexAdd_overflow : (doubling 2).config.fx1eMode = .referenceDoubleAdd ∧
    65536 ≤ (doubling 2).index.toNat + ((doubling 2).index.toNat + ((doubling 2).reg 1).toNat) % 65536 := by decide
theorem witness_DecimalStore : (∀ k < 3, 0x050 ≤ ((State.reset.setIndex 0xFFD).index.toNat + k) % 4096) ∧
    (∀ k < 3, 0x050 ≤ ((State.reset.setIndex 0x050).index.toNat + k) % 4096) ∧
    (∃ k < 3, ((State.reset.setIndex 0xFFE).index.toNat + k) % 4096 < 0x050) ∧
    (∃ k < 3, ((State.reset.setIndex 0x04F).index.toNat + k) % 4096 < 0x050) := by decide
theorem witness_RegisterStore : (∀ k ≤ (0xF : Reg).toNat, 0x050 ≤ ((State.reset.setIndex 0xFF0).index.toNat + k) % 4096) ∧
    (∀ k ≤ (0 : Reg).toNat, 0x050 ≤ ((State.reset.setIndex 0x050).index.toNat + k) % 4096) ∧
    (∃ k ≤ (0xF : Reg).toNat, ((State.reset.setIndex 0xFF1).index.toNat + k) % 4096 < 0x050) := by decide
theorem witness_RegisterLoad : (0 : Reg).toNat ≤ (0 : Reg).toNat ∧ (0xF : Reg).toNat ≤ (0xF : Reg).toNat := by decide

/-- A one-row sprite 80 at 0x300, drawn from (V0, V1) = (0x3F, 0x1F), with the last pixel lit or not. -/
def corner (lit : Bool) : State :=
  (((withRegs [(0, 0x3F), (1, 0x1F)]).writeBytes 0x300 [0x80]).setIndex 0x300).setFb
    (if lit then Framebuffer.toggle (Vector.replicate 32 0#64) 63 31 else Vector.replicate 32 0#64)

theorem witness_DrawTogglesCoveredPixels_lit : spriteCovers (corner true) 0 1 1 63 31 ∧ Framebuffer.pixel (corner true).fb 63 31 = true :=
  ⟨⟨0, by decide, 0, by decide, by decide, by decide, by decide⟩, by decide⟩
theorem witness_DrawTogglesCoveredPixels_unlit : spriteCovers (corner false) 0 1 1 63 31 ∧
    ¬ ∃ px py, spriteCovers (corner false) 0 1 1 px py ∧ Framebuffer.pixel (corner false).fb px py = true :=
  ⟨⟨0, by decide, 0, by decide, by decide, by decide, by decide⟩, fun ⟨px, py, _, h⟩ => by
    revert h; simp [corner, Framebuffer.pixel, State.setFb]⟩
theorem witness_DrawingTwiceRestoresPicture : ∃ t u, (0 : Reg) ≠ 0xF#4 ∧ (1 : Reg) ≠ 0xF#4 ∧
    exec (.drwVxVyN 0 1 1) (corner true) = .next t ∧ exec (.drwVxVyN 0 1 1) { t with pc := 0x202#16 } = .next u :=
  ⟨_, _, by decide, by decide, rfl, rfl⟩
theorem witness_KeySkips : ((withRegs [(0, 0xF)]).reg 0).toNat = (0xF : Fin 16).val ∧ ((withRegs [(0, 0)]).reg 0).toNat = (0 : Fin 16).val ∧
    15 < ((withRegs [(0, 0x10)]).reg 0).toNat ∧ (State.reset.setKey 0xF true).key[15] = true ∧ State.reset.key[15] = false := by decide
theorem witness_KeyWait : (State.reset.setKey 0xF true).key[15] = true ∧
    (∀ j : Fin 16, j.val < (15 : Fin 16).val → (State.reset.setKey 0xF true).key[j.val] = false) ∧
    (State.reset.setKey 0 true).key[0] = true ∧
    (∀ j : Fin 16, j.val < (0 : Fin 16).val → (State.reset.setKey 0 true).key[j.val] = false) ∧
    (∀ k : Fin 16, State.reset.key[k.val] = false) := by decide
theorem witness_KeyWaitSpins : (atTop 0xF50A).fault = none ∧ (atTop 0xF50A).pc.toNat ≤ 0xFFE ∧
    (atTop 0xF50A).readByte (atTop 0xF50A).pc.toNat ++ (atTop 0xF50A).readByte ((atTop 0xF50A).pc.toNat + 1) = 0xF#4 ++ 0x5#4 ++ 0x0A#8 ∧
    (∀ k : Fin 16, (atTop 0xF50A).key[k.val] = false) := by decide
theorem witness_TickCountsDown : State.reset.dt = 0#8 ∧ (State.reset.setDt 1).dt ≠ 0#8 ∧ State.reset.st = 0#8 ∧
    (State.reset.setSt 1).st = 1#8 ∧ (State.reset.setSt 0xFF).st ≠ 0#8 := by decide
theorem witness_SoundOutputs : ∃ t, runCommand .tick (State.reset.setSt 1) = .next t ∧ (State.reset.setSt 1).st = 1#8 ∧ t.st = 0#8 :=
  ⟨_, rfl, by decide, by decide⟩
theorem witness_SetKeyWritesLevel : 15 < 16 := by decide
theorem witness_LoadWritesImage : (List.replicate 3584 (0 : Byte)).length ≤ 3584 ∧ 3584 < (List.replicate 3585 (0 : Byte)).length ∧
    0 < [(0xAB : Byte)].length :=
  ⟨by rw [List.length_replicate], by rw [List.length_replicate]; decide, by decide⟩
theorem witness_ResetSetsEveryPart : 0x050 ≤ 0x050 ∧ 0xFFF < 0x1000 := by decide
theorem witness_FaultingCommandKeepsEverythingElse_step : ∃ t, State.reset.fault = none ∧
    runCommand (.step 0xAB) (State.reset.withFetchWord 16 0x00EE) = .next t ∧ t.fault = machineFault .stackUnderflow 0x200 0x00EE ∧
    FaultCause.stackUnderflow ≠ .pcOutOfRange := ⟨_, rfl, rfl, by decide, by decide⟩
theorem witness_FaultingCommandKeepsEverythingElse_fetch : ∃ t, runCommand (.step 0xAB) (State.reset.setPc 0xFFF) = .next t ∧
    t.fault = machineFault .pcOutOfRange 0xFFF 0 := ⟨_, rfl, by decide⟩
theorem witness_FaultingCommandKeepsEverythingElse_host : ∃ t, runCommand (.setKey 16 true) State.reset = .next t ∧
    t.fault = machineFault .keyIndexOutOfRange 0x200 16 ∧ (¬ ∃ r, Command.setKey 16 true = .step r) := ⟨_, rfl, by decide, by simp⟩
theorem witness_FaultingCommandKeepsEverythingElse_latched : (stepped State.reset 0x0123).fault ≠ none ∧ 15 < 16 ∧
    3584 < (List.replicate 3585 (0 : Byte)).length ∧ Command.tick ≠ .reset :=
  ⟨by decide, by decide, by rw [List.length_replicate]; decide, by decide⟩
theorem witness_FirstFaultStaysUntilReset : ∃ t u, (stepped State.reset 0x0123).fault.isSome = true ∧
    runCommand .tick (stepped State.reset 0x0123) = .next t ∧ runCommand .reset (stepped State.reset 0x0123) = .next u ∧
    Command.tick ≠ .reset := ⟨_, _, by decide, rfl, rfl, by decide⟩
theorem witness_PowerOnEqualsReset : ((withRegs [(1, 2)]).setPc 0xFFF).config = Config.default ∧
    ((withRegs [(1, 2)]).setPc 0xFFF).draws = 0 := by decide
theorem witness_OnlyResetWritesFontRegion : ∃ t, Command.load [1] ≠ .reset ∧ runCommand (.load [1]) State.reset = .next t ∧ 0x04F < 0x050 :=
  ⟨_, by decide, rfl, by decide⟩
theorem witness_OnlyNamedInstructionsWriteEachPart :
    (∃ t, exec (.ldINnn 1) State.reset = .next t ∧ t.index ≠ State.reset.index) ∧
    (∃ t, exec (.callNnn 1) State.reset = .next t ∧ t.stack ≠ State.reset.stack ∧ t.sp ≠ State.reset.sp) ∧
    (∃ t, exec (.ldDtVx 0) (withRegs [(0, 1)]) = .next t ∧ t.dt ≠ (withRegs [(0, 1)]).dt) ∧
    (∃ t, exec (.ldStVx 0) (withRegs [(0, 1)]) = .next t ∧ t.st ≠ (withRegs [(0, 1)]).st) ∧
    (∃ t, exec .cls (corner true) = .next t ∧ t.fb ≠ (corner true).fb) ∧
    (∃ t, exec (.ldBVx 0) ((withRegs [(0, 1)]).setIndex 0x300) = .next t ∧ t.mem ≠ ((withRegs [(0, 1)]).setIndex 0x300).mem) :=
  ⟨⟨_, rfl, by decide⟩, ⟨_, rfl, by decide, by decide⟩, ⟨_, rfl, by decide⟩, ⟨_, rfl, by decide⟩, ⟨_, rfl, by decide⟩, ⟨_, rfl, by decide⟩⟩
theorem witness_OnlyNamedInstructionsWriteVF : ∃ t, exec (.subVxVy 0 0) State.reset = .next t ∧ t.reg 0xF#4 ≠ State.reset.reg 0xF#4 :=
  ⟨_, rfl, by decide⟩
theorem witness_PcAfterEachInstruction : ∃ t, exec (.jpV0Nnn 0xFFF) (withRegs [(0, 0xFF)]) = .next t ∧ t.pc = 0x10FE#16 :=
  ⟨_, rfl, by decide⟩
theorem witness_NoInstructionReadsSoundTimer : ∃ t, exec (.ldVxDt 0) (State.reset.setSt 5) = .next t := ⟨_, rfl⟩

/-- A running state that meets the invariant: registers set, a byte stored, a call made, and the latch set by an illegal word. -/
def running : State := stepped ((withRegs [(1, 0x12)]).writeBytes 0x300 [0xAB] |>.push 0x204 (by decide)) 0x0123

theorem witness_Inv : Inv running := ⟨by decide, by decide, by decide, by decide, by decide, by decide⟩
theorem witness_StepKeepsInvariant : ∃ t, Inv running ∧ step running = .next t := ⟨_, witness_Inv, rfl⟩
theorem witness_EveryRunKeepsInvariant : ∃ t, Inv running ∧ runCommands [.reset, .load [0x12, 0x00], .step 0xAB, .tick] running = .next t :=
  ⟨_, witness_Inv, rfl⟩

end Sys2Proof.Tests
end

section
/-! SUPPORT. The fields that Laws/State.lean leaves out, those of a fault of the executing instruction and what a push and a pop write; when a
register write changes a register; and the values of the address words. -/

namespace Sys2Proof.Machine

section
variable (s : State) (c : FaultCause) (i : Instr)

@[simp] theorem raiseInstr_reg (r : Reg) : (s.raiseInstr c i).reg r = s.reg r := raise_reg ..
@[simp] theorem raiseInstr_pc : (s.raiseInstr c i).pc = s.pc := raise_pc ..
@[simp] theorem raiseInstr_index : (s.raiseInstr c i).index = s.index := raise_index ..
@[simp] theorem raiseInstr_stack : (s.raiseInstr c i).stack = s.stack := raise_stack ..
@[simp] theorem raiseInstr_sp : (s.raiseInstr c i).sp = s.sp := raise_sp ..
@[simp] theorem raiseInstr_dt : (s.raiseInstr c i).dt = s.dt := raise_dt ..
@[simp] theorem raiseInstr_st : (s.raiseInstr c i).st = s.st := raise_st ..
@[simp] theorem raiseInstr_key : (s.raiseInstr c i).key = s.key := raise_key ..
@[simp] theorem raiseInstr_fb : (s.raiseInstr c i).fb = s.fb := raise_fb ..
@[simp] theorem raiseInstr_mem : (s.raiseInstr c i).mem = s.mem := raise_mem ..
@[simp] theorem raiseInstr_config : (s.raiseInstr c i).config = s.config := raise_config ..

end

/-- R29: a push writes the entry at sp. -/
@[simp] theorem push_stack (s : State) (w : Word) (h : s.sp.val < stackDepth) :
    (s.push w h).stack = s.stack.set s.sp.val w h := rfl

/-- R111: the popped pc is the entry below sp. -/
@[simp] theorem popPc_pc (s : State) (h : 0 < s.sp.val) :
    (s.popPc h).pc = s.stack[s.sp.val - 1]'(by omega) := rfl

/-- A register write that changes register r is a write of r. -/
theorem eq_of_reg_setReg_ne {s : State} {x r : Reg} {b : Byte} (h : (s.setReg x b).reg r ≠ s.reg r) : r = x := by
  rw [reg_setReg] at h
  exact (ite_ne_right_iff.1 h).1

theorem zextAddr_toNat (nnn : Addr12) : (zextAddr nnn).toNat = nnn.toNat := by
  simp only [zextAddr]; bv_omega

/-- R118: the sum of Bnnn fits 16 bits, so it is exact. -/
theorem zextByte_add_zextAddr_toNat (b : Byte) (nnn : Addr12) :
    (zextByte b + zextAddr nnn).toNat = b.toNat + nnn.toNat := by
  simp only [zextByte, zextAddr]; bv_omega

end Sys2Proof.Machine
end

section
/-! SUPPORT. What an instruction can do, said once over all constructors of `Instr`: `Effect s i t` lists the updates by which `i` may take
`s` to `t`, and `exec_effect` says that `exec` does one of them. The statements about every instruction read it instead of `exec`. -/

namespace Sys2Proof

/-- The register an instruction names as its only destination, for the instructions that write nothing else (R21). -/
def Instr.dest (i : Instr) : Option Reg :=
  match i with
  | .ldVxNn x _ | .addVxNn x _ | .ldVxVy x _ | .orVxVy x _ | .andVxVy x _ | .xorVxVy x _ | .ldVxDt x | .ldVxK x => some x
  | _ => none

/-- The ALU instructions that write VF as a flag (R130, R131). -/
def Instr.setsFlag (i : Instr) : Bool :=
  match i with
  | .addVxVy _ _ | .subVxVy _ _ | .shrVxVy _ _ | .subnVxVy _ _ | .shlVxVy _ _ => true
  | _ => false

/-- The instructions that may skip the next one (R119). -/
def Instr.isSkip (i : Instr) : Bool :=
  match i with
  | .seVxNn _ _ | .sneVxNn _ _ | .seVxVy _ _ | .sneVxVy _ _ | .skpVx _ | .sknpVx _ => true
  | _ => false

/-- The instructions that write I (R27). -/
def Instr.setsIndex (i : Instr) : Bool :=
  match i with
  | .ldINnn _ | .addIVx _ | .ldFVx _ => true
  | _ => false

/-- The instructions that store into memory (R61). -/
def Instr.isStore (i : Instr) : Bool :=
  match i with
  | .ldBVx _ | .ldMemIVx _ => true
  | _ => false

theorem Instr.setsFlag_iff (i : Instr) : i.setsFlag = true ↔
    ∃ x y, i = .addVxVy x y ∨ i = .subVxVy x y ∨ i = .shrVxVy x y ∨ i = .subnVxVy x y ∨ i = .shlVxVy x y := by
  cases i <;> simp [Instr.setsFlag]

theorem Instr.isSkip_iff (i : Instr) : i.isSkip = true ↔
    (∃ x nn, i = .seVxNn x nn ∨ i = .sneVxNn x nn) ∨ (∃ x y, i = .seVxVy x y ∨ i = .sneVxVy x y) ∨
      ∃ x, i = .skpVx x ∨ i = .sknpVx x := by
  cases i <;> simp [Instr.isSkip]

theorem Instr.setsIndex_iff (i : Instr) : i.setsIndex = true ↔
    (∃ nnn, i = .ldINnn nnn) ∨ (∃ x, i = .addIVx x) ∨ (∃ x, i = .ldFVx x) := by
  cases i <;> simp [Instr.setsIndex]

theorem Instr.isStore_iff (i : Instr) : i.isStore = true ↔ (∃ x, i = .ldBVx x) ∨ ∃ x, i = .ldMemIVx x := by
  cases i <;> simp [Instr.isStore]

theorem Instr.dest_eq_some (i : Instr) (x : Reg) : i.dest = some x ↔
    (∃ nn, i = .ldVxNn x nn ∨ i = .addVxNn x nn) ∨
    (∃ y, i = .ldVxVy x y ∨ i = .orVxVy x y ∨ i = .andVxVy x y ∨ i = .xorVxVy x y) ∨
    i = .ldVxDt x ∨ i = .ldVxK x := by
  cases i <;> simp [Instr.dest]

end Sys2Proof

namespace Sys2Proof.Machine

/-- The updates by which an instruction takes `s` to another state. -/
inductive Effect (s : State) : Instr → State → Prop where
  /-- A fault of the instruction's own (R214). -/
  | fault (i : Instr) (c : FaultCause) : Effect s i (s.raiseInstr c i)
  /-- R110. -/
  | nothing : Effect s .nop s
  /-- R132 to R137, R192, and R193 with a pressed key. -/
  | register (i : Instr) (x : Reg) (b : Byte) (hi : i.dest = some x) : Effect s i (s.setReg x b)
  /-- R138 to R142. -/
  | resultAndFlag (i : Instr) (x : Reg) (b : Byte) (f : Bool) (hi : i.setsFlag = true) : Effect s i (s.setResultFlag x b f)
  /-- R143. -/
  | random (x : Reg) (nn b : Byte) : Effect s (.rndVxNn x nn) (s.setReg x b).countDraw
  /-- R165. -/
  | loadRegisters (x : Reg) : Effect s (.ldVxMemI x) (s.loadRegsUpTo x)
  /-- R114 to R117, R190 and R191. -/
  | skip (i : Instr) (taken : Bool) (hi : i.isSkip = true) : Effect s i (s.skipIf taken)
  /-- R112. -/
  | jump (nnn : Addr12) : Effect s (.jpNnn nnn) (s.setPc (zextAddr nnn))
  /-- R118. -/
  | jumpV0 (nnn : Addr12) : Effect s (.jpV0Nnn nnn) (s.setPc (zextByte (s.reg 0#4) + zextAddr nnn))
  /-- R113. -/
  | call (nnn : Addr12) (h : s.sp.val < stackDepth) : Effect s (.callNnn nnn) ((s.push s.pc h).setPc (zextAddr nnn))
  /-- R111. -/
  | popPc (h : 0 < s.sp.val) : Effect s .ret (s.popPc h)
  /-- R193 with no key pressed. -/
  | waitForKey (x : Reg) : Effect s (.ldVxK x) (s.setPc (s.pc - 2))
  /-- R160 to R162. -/
  | index (i : Instr) (w : Word) (hi : i.setsIndex = true) : Effect s i (s.setIndex w)
  /-- R194. -/
  | delay (x : Reg) : Effect s (.ldDtVx x) (s.setDt (s.reg x))
  /-- R195. -/
  | sound (x : Reg) : Effect s (.ldStVx x) (s.setSt (s.reg x))
  /-- R181. -/
  | clear (fb : Framebuffer) : Effect s .cls (s.setFb fb)
  /-- R182. -/
  | draw (x y : Reg) (n : Nibble) (fb : Framebuffer) (f : Byte) : Effect s (.drwVxVyN x y n) ((s.setFb fb).setReg 0xF#4 f)
  /-- R163 and R164. -/
  | store (i : Instr) (bytes : List Byte) (hi : i.isStore = true)
      (hfont : ∀ k < bytes.length, fontSize ≤ (s.index.toNat + k) % memSize) :
      Effect s i (s.writeBytes s.index.toNat bytes)

theorem skipOnKey_effect (s : State) {i : Instr} (hi : i.isSkip = true) (x : Reg) (level : Bool) :
    Effect s i (s.skipOnKey i x level) := by
  rcases skipOnKey_cases s i x level with ⟨k, _, h⟩ | ⟨_, h⟩ <;> rw [h]
  · exact .skip _ _ hi
  · exact .fault ..

theorem storeAtIndex_effect (s : State) {i : Instr} (hi : i.isStore = true) (bytes : List Byte) :
    Effect s i (s.storeAtIndex i bytes) := by
  rcases storeAtIndex_cases s i bytes with ⟨_, h⟩ | ⟨hfont, h⟩ <;> rw [h]
  · exact .fault ..
  · exact .store _ _ hi hfont

/-- Every instruction has one of the effects. -/
theorem exec_effect {i : Instr} {s t : State} (h : exec i s = .next t) : Effect s i t := by
  cases i
  case nop => cases h; exact .nothing
  case cls => cases h; exact .clear _
  case ret =>
    simp only [exec, execRet] at h; split at h <;> cases h
    · exact .popPc _
    · exact .fault ..
  case jpNnn => cases h; exact .jump _
  case jpV0Nnn => cases h; exact .jumpV0 _
  case callNnn =>
    simp only [exec, execCallNnn] at h; split at h <;> cases h
    · exact .call ..
    · exact .fault ..
  case seVxNn | sneVxNn | seVxVy | sneVxVy => cases h; exact .skip _ _ rfl
  case skpVx | sknpVx => cases h; exact skipOnKey_effect s rfl ..
  case ldVxNn | addVxNn | ldVxVy | orVxVy | andVxVy | xorVxVy | ldVxDt => cases h; exact .register _ _ _ rfl
  case addVxVy | subVxVy | shrVxVy | subnVxVy | shlVxVy => cases h; exact .resultAndFlag _ _ _ _ rfl
  case rndVxNn => cases h; exact .random ..
  case ldVxMemI => cases h; exact .loadRegisters _
  case ldVxK =>
    cases h; split
    · exact .register _ _ _ rfl
    · exact .waitForKey _
  case ldINnn | ldFVx => cases h; exact .index _ _ rfl
  case addIVx x =>
    cases h; split
    · exact .index _ _ rfl
    · rcases doubleAddIndex_cases s x with ⟨_, h⟩ | ⟨_, h⟩ <;> rw [h]
      · exact .index _ _ rfl
      · exact .fault ..
  case drwVxVyN => cases h; exact .draw ..
  case ldDtVx => cases h; exact .delay _
  case ldStVx => cases h; exact .sound _
  case ldBVx | ldMemIVx => cases h; exact storeAtIndex_effect s rfl _

end Sys2Proof.Machine
end

section
/-! SUPPORT. What each effect leaves of every part of the state, of VF and of pc. -/

namespace Sys2Proof.Machine

/-- Settles O54, by reading off each effect the parts it leaves. -/
theorem onlyNamedInstructionsWriteEachPart : Obligations.OnlyNamedInstructionsWriteEachPart := by
  intro i s t h
  rw [← i.setsIndex_iff, ← i.isStore_iff]
  cases exec_effect h with
  | index _ _ hi => simp [hi]
  | store _ _ hi => simp [hi]
  | _ => simp

/-- Settles O55: VF is the destination of a register write, or the effect is one that writes a flag. -/
theorem onlyNamedInstructionsWriteVF : Obligations.OnlyNamedInstructionsWriteVF := by
  intro i s t h hvf
  cases exec_effect h with
  | register _ x b hi =>
    obtain rfl := eq_of_reg_setReg_ne hvf
    rcases (i.dest_eq_some _).1 hi with ⟨nn, rfl | rfl⟩ | hmove | rfl | rfl
    · simp
    · simp
    · exact .inr (.inr (.inr (.inl hmove)))
    · simp
    · simp
  | resultAndFlag _ _ _ _ hi => exact .inl (i.setsFlag_iff.1 hi)
  | random x nn b =>
    obtain rfl := eq_of_reg_setReg_ne (s := s) (b := b) (by simpa using hvf)
    simp
  | loadRegisters x =>
    have hx : x = 0xF#4 := by
      rw [reg_loadRegsUpTo] at hvf
      have hle := (ite_ne_right_iff.1 hvf).1
      bv_omega
    simp [hx]
  | draw x y n => exact .inr (.inl ⟨x, y, n, rfl⟩)
  | _ => simp at hvf

/-- Settles O56, by reading off each effect the pc it leaves. -/
theorem pcAfterEachInstruction : Obligations.PcAfterEachInstruction := by
  intro i s t h
  rw [← i.isSkip_iff]
  cases exec_effect h with
  | skip _ taken hi => cases taken <;> simp [hi]
  | jump | call => simp [zextAddr_toNat]
  | jumpV0 nnn => exact .inr (.inr (.inr (.inl ⟨nnn, rfl, zextByte_add_zextAddr_toNat ..⟩)))
  | popPc hsp =>
    have hentry : ∃ j : Fin 16, s.sp.val = j.val + 1 ∧ (s.popPc hsp).pc = s.stack[j.val] :=
      ⟨⟨s.sp.val - 1, by omega⟩, by simp only; omega, rfl⟩
    exact .inr (.inr (.inr (.inr (.inl ⟨rfl, hentry⟩))))
  | waitForKey => simp
  | _ => exact .inl (by simp)

end Sys2Proof.Machine
end

section
/-! SUPPORT. No operation but the store to ST reads ST: each commutes with a write of ST (R31). -/

namespace Sys2Proof.Machine

section
variable (s : State) (b : Byte)

theorem setSt_skipIf (taken : Bool) : (s.setSt b).skipIf taken = (s.skipIf taken).setSt b := by cases taken <;> rfl

theorem setSt_raiseInstr (c : FaultCause) (i : Instr) : (s.setSt b).raiseInstr c i = (s.raiseInstr c i).setSt b := by
  rw [raiseInstr_eq, raiseInstr_eq]; rfl

theorem setSt_skipOnKey (i : Instr) (x : Reg) (level : Bool) :
    (s.setSt b).skipOnKey i x level = (s.skipOnKey i x level).setSt b := by
  unfold State.skipOnKey
  simp only [setSt_reg, setSt_raiseInstr, setSt_skipIf]
  split <;> rfl

theorem setSt_doubleAddIndex (x : Reg) : (s.setSt b).doubleAddIndex x = (s.doubleAddIndex x).setSt b := by
  unfold State.doubleAddIndex
  rw [setSt_raiseInstr, apply_ite (State.setSt · b)]
  rfl

theorem setSt_writeBytes (bytes : List Byte) (a : Nat) : (s.setSt b).writeBytes a bytes = (s.writeBytes a bytes).setSt b := by
  induction bytes generalizing s a with
  | nil => rfl
  | cons c rest ih => exact ih (s.writeByte a c) (a + 1)

theorem setSt_storeAtIndex (i : Instr) (bytes : List Byte) :
    (s.setSt b).storeAtIndex i bytes = (s.storeAtIndex i bytes).setSt b := by
  unfold State.storeAtIndex
  rw [setSt_raiseInstr, setSt_writeBytes, apply_ite (State.setSt · b)]
  rfl

theorem setSt_foldl_setReg (f : Nat → Reg) (g : Nat → Byte) (ks : List Nat) :
    ks.foldl (fun t k => t.setReg (f k) (g k)) (s.setSt b) = (ks.foldl (fun t k => t.setReg (f k) (g k)) s).setSt b := by
  induction ks generalizing s with
  | nil => rfl
  | cons k rest ih => exact ih (s.setReg (f k) (g k))

end

/-- Every instruction but the store to ST does the same whatever ST holds. -/
theorem exec_setSt {i : Instr} (hi : ∀ x, i ≠ .ldStVx x) {s t : State} (b : Byte) (h : exec i s = .next t) :
    exec i (s.setSt b) = .next (t.setSt b) := by
  cases i
  case ldStVx x => exact absurd rfl (hi x)
  case ret =>
    simp only [exec, execRet, setSt_raiseInstr] at h ⊢
    split at h <;> cases h <;> rename_i hp
    · rw [dif_pos (by exact hp)]; rfl
    · rw [dif_neg (by exact hp)]
  case callNnn =>
    simp only [exec, execCallNnn, setSt_raiseInstr] at h ⊢
    split at h <;> cases h <;> rename_i hp
    · rw [dif_pos (by exact hp)]; rfl
    · rw [dif_neg (by exact hp)]
  case seVxNn | sneVxNn | seVxVy | sneVxVy => cases h; exact congrArg _ (setSt_skipIf ..)
  case skpVx | sknpVx => cases h; exact congrArg _ (setSt_skipOnKey ..)
  case ldBVx | ldMemIVx => cases h; exact congrArg _ (setSt_storeAtIndex ..)
  case ldVxMemI => cases h; exact congrArg _ (setSt_foldl_setReg ..)
  case ldVxK x =>
    cases h
    simp only [exec, execLdVxK]
    rw [show (s.setSt b).lowestKey = s.lowestKey from rfl]
    split <;> rfl
  case addIVx x =>
    cases h
    simp only [exec, execAddIVx, setSt_config, setSt_doubleAddIndex]
    split <;> rfl
  all_goals (cases h; rfl)

/-- Settles O57: the store to ST overwrites the difference, and every other instruction carries it along. -/
theorem noInstructionReadsSoundTimer : Obligations.NoInstructionReadsSoundTimer := by
  intro i s t b h
  by_cases hi : ∀ x, i ≠ .ldStVx x
  · exact ⟨t.setSt b, exec_setSt hi b h, rfl⟩
  · simp only [not_forall, not_not] at hi
    obtain ⟨x, rfl⟩ := hi
    cases h
    exact ⟨_, rfl, rfl⟩

end Sys2Proof.Machine
end

section
/-! SUPPORT. The invariant: it holds at reset, a fault and the fetch keep it, and so does every instruction that executes after a fetch. -/

namespace Sys2Proof.Machine

/-! ## Reset -/

/-- R56: the reset contents of the font region are FONT. -/
theorem resetWith_readByte (c : Config) (a : Fin 80) : (State.resetWith c).readByte a.val = c.font[a.val] := by
  have hmod : a.val % memSize = a.val := Nat.mod_eq_of_lt (by simp only [memSize]; omega)
  simp [State.readByte, State.resetWith, Memory.read, Memory.base, hmod]

/-- Settles O58. -/
theorem resetMeetsInvariant : Obligations.ResetMeetsInvariant := fun c =>
  { memory := reset_memory_wf _
    font := resetWith_readByte c
    latch := by simp [State.resetWith]
    pc := by simp [State.resetWith]
    stack := by simp [State.resetWith]
    rnd := rfl }

/-! ## Faults and the fetch -/

theorem raise_keeps_latch_kind {s : State} (hs : ∀ f ∈ s.fault, f.kind = f.cause.kind) (c : FaultCause) (a w : Word) :
    ∀ f ∈ (s.raise c a w).fault, f.kind = f.cause.kind := by
  rw [raise_fault]
  cases hf : s.fault with
  | none => simp
  | some g => simpa using hs g hf

theorem raise_inv {s : State} (hs : Inv s) (c : FaultCause) (a w : Word) : Inv (s.raise c a w) where
  memory := by simpa using hs.memory
  font := by simpa using hs.font
  latch := raise_keeps_latch_kind hs.latch c a w
  pc := by simpa using hs.pc
  stack := by simpa using hs.stack
  rnd := by simpa using hs.rnd

/-- After a fetch pc is the address of the instruction plus 2 (R95). -/
theorem advance_pc_toNat {s : State} (hp : s.pc.toNat ≤ lastFetch) : s.advance.pc.toNat = s.pc.toNat + 2 := by
  simp only [advance_pc, lastFetch] at *
  bv_omega

theorem advance_inv {s : State} (hs : Inv s) (hp : s.pc.toNat ≤ lastFetch) : Inv s.advance where
  memory := hs.memory
  font := by simpa using hs.font
  latch := hs.latch
  pc := by rw [advance_pc_toNat hp]; simp only [lastFetch] at hp; omega
  stack := hs.stack
  rnd := hs.rnd

/-! ## Instructions -/

/-- The parameters stay, and memory too unless a store wrote bytes, none of them into the font region (R55, R61). -/
theorem exec_memory_cases {i : Instr} {s t : State} (h : exec i s = .next t) :
    (t.mem = s.mem ∧ t.config = s.config) ∨
    ∃ bytes : List Byte, (∀ k < bytes.length, fontSize ≤ (s.index.toNat + k) % memSize) ∧
      t = s.writeBytes s.index.toNat bytes := by
  cases exec_effect h with
  | store _ bytes _ hfont => exact .inr ⟨bytes, hfont, rfl⟩
  | _ => exact .inl (by simp)

theorem exec_keeps_memory_wf {i : Instr} {s t : State} (h : exec i s = .next t)
    (hs : Memory.wf s.config.font s.mem = true) : Memory.wf t.config.font t.mem = true := by
  rcases exec_memory_cases h with ⟨hmem, hconfig⟩ | ⟨bytes, _, rfl⟩
  · rw [hmem, hconfig, hs]
  · exact writeBytes_wf _ _ _ hs

theorem exec_keeps_config {i : Instr} {s t : State} (h : exec i s = .next t) : t.config = s.config := by
  rcases exec_memory_cases h with ⟨_, hconfig⟩ | ⟨bytes, _, rfl⟩
  · exact hconfig
  · exact writeBytes_config ..

/-- R55: no instruction changes a byte of the font region. -/
theorem exec_keeps_font_bytes {i : Instr} {s t : State} (h : exec i s = .next t) {a : Nat} (ha : a < fontSize) :
    t.readByte a = s.readByte a := by
  rcases exec_memory_cases h with ⟨hmem, hconfig⟩ | ⟨bytes, hfont, rfl⟩
  · simp only [State.readByte, hmem, hconfig]
  · refine readByte_writeBytes_other _ _ _ _ fun k hk => ?_
    have := hfont k hk
    simp only [memSize, fontSize] at *
    omega

theorem exec_keeps_latch_kind {i : Instr} {s t : State} (h : exec i s = .next t)
    (hs : ∀ f ∈ s.fault, f.kind = f.cause.kind) : ∀ f ∈ t.fault, f.kind = f.cause.kind := by
  rcases exec_keeps_latch_or_faults h with hf | ⟨c, _, _, rfl⟩
  · rwa [hf]
  · exact raise_keeps_latch_kind hs c _ _

/-- R26: after the fetch at an address of at most 0xFFE an instruction leaves pc at most 0x10FE, which Bnnn reaches. -/
theorem exec_pc_le {i : Instr} {s t : State} (h : exec i s = .next t) (hlo : 2 ≤ s.pc.toNat) (hhi : s.pc.toNat ≤ 0x1000)
    (hstack : ∀ j : Fin 16, s.stack[j.val].toNat ≤ 0x1000) : t.pc.toNat ≤ 0x10FE := by
  rcases pcAfterEachInstruction i s t h with
    hp | ⟨hp, _⟩ | ⟨nnn, _, hp⟩ | ⟨nnn, _, hp⟩ | ⟨_, j, _, hp⟩ | ⟨_, _, hp⟩ <;> rw [hp]
  · omega
  · bv_omega
  · omega
  · omega
  · have := hstack j; omega
  · bv_omega

/-- R113: the one entry that CALL writes is pc, the address of the instruction plus 2. -/
theorem exec_stack_le {i : Instr} {s t : State} (h : exec i s = .next t) (hhi : s.pc.toNat ≤ 0x1000)
    (hstack : ∀ j : Fin 16, s.stack[j.val].toNat ≤ 0x1000) (j : Fin 16) : t.stack[j.val].toNat ≤ 0x1000 := by
  cases exec_effect h with
  | call nnn hsp =>
    simp only [setPc_stack, push_stack, Vector.getElem_set]
    split
    · exact hhi
    · exact hstack j
  | _ => simpa using hstack j

/-- An instruction that executes after a fetch keeps the invariant. -/
theorem exec_inv {i : Instr} {s t : State} (hs : Inv s) (hlo : 2 ≤ s.pc.toNat) (hhi : s.pc.toNat ≤ 0x1000)
    (h : exec i s = .next t) : Inv t where
  memory := exec_keeps_memory_wf h hs.memory
  font a := by
    rw [exec_keeps_font_bytes h a.isLt, hs.font a]
    simp only [exec_keeps_config h]
  latch := exec_keeps_latch_kind h hs.latch
  pc := exec_pc_le h hlo hhi hs.stack
  stack := exec_stack_le h hhi hs.stack
  rnd := (exec_keeps_rnd h).trans hs.rnd

/-- Settles O59, by the four cases of a STEP. -/
theorem stepKeepsInvariant : Obligations.StepKeepsInvariant := by
  intro s t hs h
  rcases step_cases h with ⟨_, _, rfl⟩ | ⟨_, _, rfl⟩ | ⟨_, hp, _, rfl⟩ | ⟨_, hp, i, _, h⟩
  · exact hs
  · exact raise_inv hs ..
  · exact raise_inv (advance_inv hs hp) ..
  · have hpc := advance_pc_toNat hp
    simp only [lastFetch] at hp
    exact exec_inv (advance_inv hs (by simpa using hp)) (by omega) (by omega) h

end Sys2Proof.Machine
end

section
/-! SUPPORT. Memory over whole commands: what Fx55 leaves at each of its targets (20_memory.md R65), and the font region, which no
command but RESET changes (R55, R57). -/

namespace Sys2Proof.Machine

/-! ## Stored bytes are fetched -/

/-- R52: a read depends on its address mod 4096 only. -/
theorem readByte_eq_of_mod_eq (s : State) {q q' : Nat} (h : q % memSize = q' % memSize) : s.readByte q = s.readByte q' := by
  simp only [State.readByte, h]

/-- R164: Fx55 without a fault writes V[0..x] at I, I + 1, .... -/
theorem ldMemIVx_eq_writeBytes {x : Reg} {s t : State} (h : exec (.ldMemIVx x) s = .next t) (ht : t.fault = none) :
    t = s.writeBytes s.index.toNat (s.regsUpTo x) := by
  cases h
  rcases storeAtIndex_cases s (.ldMemIVx x) (s.regsUpTo x) with ⟨_, hfault⟩ | ⟨_, hstore⟩
  · simp [hfault, raiseInstr_eq] at ht
  · exact hstore

/-- R164: after Fx55 without a fault V[k] is read at every address that is I + k mod 4096. -/
theorem readByte_of_ldMemIVx {x : Reg} {s t : State} (h : exec (.ldMemIVx x) s = .next t) (ht : t.fault = none)
    {k q : Nat} (hk : k ≤ x.toNat) (hq : (s.index.toNat + k) % memSize = q % memSize) :
    t.readByte q = s.reg (BitVec.ofNat 4 k) := by
  have hlen : (s.regsUpTo x).length ≤ memSize := by have := x.isLt; simp only [regsUpTo_length, memSize]; omega
  rw [ldMemIVx_eq_writeBytes h ht, ← readByte_eq_of_mod_eq _ hq,
    readByte_writeBytes _ hlen _ _ k (by simp only [regsUpTo_length]; omega), regsUpTo_getElem]

/-- Settles O15: pc is at most 0xFFE, so pc + 1 is the target of V[k + 1] as pc is that of V[k]. -/
theorem nextFetchSeesStoredBytes : Obligations.NextFetchSeesStoredBytes := by
  intro s t x k _ h ht hk hpc hq
  have hhigh : t.readByte t.pc.toNat = s.reg (BitVec.ofNat 4 k) :=
    readByte_of_ldMemIVx h ht hk.le (by simp only [memSize]; omega)
  have hlow : t.readByte (t.pc.toNat + 1) = s.reg (BitVec.ofNat 4 (k + 1)) :=
    readByte_of_ldMemIVx h ht hk (by simp only [memSize]; omega)
  rw [State.fetchWord, hhigh, hlow]

/-! ## The font region -/

/-- R57: LOAD writes from 0x200 up, and its longest image ends at 0xFFF. -/
theorem doLoad_keeps_font_bytes (s : State) (bytes : List Byte) {a : Nat} (ha : a < fontSize) :
    (s.doLoad bytes).readByte a = s.readByte a := by
  unfold State.doLoad
  split
  · refine readByte_writeBytes_other _ _ _ _ fun k hk => ?_
    simp only [maxImage, memSize, progBase, fontSize] at *
    omega
  · exact raise_readByte ..

theorem doSetKey_readByte (s : State) (index : Nat) (pressed : Bool) (q : Nat) :
    (s.doSetKey index pressed).readByte q = s.readByte q := by
  unfold State.doSetKey
  split
  · exact setKey_readByte ..
  · exact raise_readByte ..

theorem doTick_readByte (s : State) (q : Nat) : s.doTick.readByte q = s.readByte q := by
  simp only [State.doTick, setSt_readByte, setDt_readByte]

/-- R55: of the four cases of a STEP only an instruction can store, and its font check holds. -/
theorem step_keeps_font_bytes {s t : State} (h : step s = .next t) {a : Nat} (ha : a < fontSize) :
    t.readByte a = s.readByte a := by
  rcases step_cases h with ⟨_, _, rfl⟩ | ⟨_, _, rfl⟩ | ⟨_, _, _, rfl⟩ | ⟨_, _, i, _, hexec⟩
  · rfl
  · exact raise_readByte ..
  · rw [raise_readByte, advance_readByte]
  · rw [exec_keeps_font_bytes hexec ha, advance_readByte]

/-- Settles O53, command by command. -/
theorem onlyResetWritesFontRegion : Obligations.OnlyResetWritesFontRegion := by
  intro c s t hc h a ha
  cases c with
  | reset => exact absurd rfl hc
  | load bytes => cases h; exact doLoad_keeps_font_bytes s bytes ha
  | setKey index pressed => cases h; exact doSetKey_readByte ..
  | step r =>
    obtain ⟨u, hu, rfl⟩ := stepWith_eq_next.1 h
    rw [setRnd_readByte, step_keeps_font_bytes hu ha, setRnd_readByte]
  | tick => cases h; exact doTick_readByte ..
  | readFb => cases h; rfl

end Sys2Proof.Machine
end

section
/-! SUPPORT. The decoder and the encoder against each other, against the list of illegal words and against the rows of the opcode table
(30_encoding.md R76, R77, R78). -/

namespace Sys2Proof

open Laws

/-! ## Decoding an encoded instruction -/

/-- Settles O2, by the format of each instruction: the fields of the word put together are the ones it was put together from. -/
theorem decodeOfEncode : Obligations.DecodeOfEncode := by
  intro i
  cases i with
  | nop | cls | ret => rfl
  | jpNnn | callNnn | ldINnn | jpV0Nnn => simp [encode, decode]
  | seVxNn | sneVxNn | ldVxNn | addVxNn | rndVxNn => simp [encode, decode]
  | seVxVy | sneVxVy | drwVxVyN => simp [encode, decode]
  | ldVxVy | orVxVy | andVxVy | xorVxVy | addVxVy | subVxVy | shrVxVy | subnVxVy | shlVxVy =>
    simp [encode, decode, decode8]
  | skpVx | sknpVx => simp [encode, decode, decodeE]
  | ldVxDt | ldVxK | ldDtVx | ldStVx | addIVx | ldFVx | ldBVx | ldMemIVx | ldVxMemI =>
    simp [encode, decode, decodeF]

/-! ## Encoding a decoded instruction -/

section
variable {op : Word} {d n : BitVec 4} {nn : Byte} {i : Instr}

/-- A word whose fixed nibble is d has the format d ++ nnn; the next two lemmas say so of the formats with more fixed fields. -/
theorem word_of_d1 (hd : fieldD1 op = d) : d ++ fieldNNN op = op := hd ▸ word_eq_nnn op

theorem word_of_d1_nn (hd : fieldD1 op = d) (hnn : fieldNN op = nn) : d ++ fieldX op ++ nn = op := by
  rw [← hd, ← hnn, word_eq_nn]

theorem word_of_d1_n (hd : fieldD1 op = d) (hn : fieldN op = n) : d ++ fieldX op ++ fieldY op ++ n = op := by
  rw [← hd, ← hn, word_eq_xyn]

theorem encode_of_decode0 (h : decode0 op = .ok i) : encode i = op := by
  unfold decode0 at h
  split_ifs at h <;> cases h <;> simp [encode, *]

theorem encode_of_decode8 (hd : fieldD1 op = 0x8#4) (h : decode8 op = .ok i) : encode i = op := by
  unfold decode8 at h
  split at h <;> cases h <;> exact word_of_d1_n hd ‹_›

theorem encode_of_decodeE (hd : fieldD1 op = 0xE#4) (h : decodeE op = .ok i) : encode i = op := by
  unfold decodeE at h
  split at h <;> cases h <;> exact word_of_d1_nn hd ‹_›

theorem encode_of_decodeF (hd : fieldD1 op = 0xF#4) (h : decodeF op = .ok i) : encode i = op := by
  unfold decodeF at h
  split at h <;> cases h <;> exact word_of_d1_nn hd ‹_›

end

/-- Settles O3. The cases are the arms of the decoder: case h_(k + 1) is d1 = k (R75). -/
theorem encodeOfDecode : Obligations.EncodeOfDecode := by
  intro op i h
  unfold decode at h
  split at h <;> rename_i hd
  case h_1 => exact encode_of_decode0 h
  case h_2 | h_3 | h_11 | h_12 => cases h; exact word_of_d1 hd
  case h_4 | h_5 | h_7 | h_8 | h_13 => cases h; exact word_of_d1_nn hd rfl
  case h_6 | h_10 =>
    split at h <;> cases h
    exact word_of_d1_n hd ‹_›
  case h_9 => exact encode_of_decode8 hd h
  case h_14 => cases h; exact word_of_d1_n hd rfl
  case h_15 => exact encode_of_decodeE hd h
  case h_16 => exact encode_of_decodeF hd h
  case h_17 => cases h

/-! ## The words the decoder refuses -/

theorem toNat_div_0x1000 (op : Word) : op.toNat / 0x1000 = (fieldD1 op).toNat := by
  have := op.isLt
  simp only [fieldD1, BitVec.extractLsb'_toNat, Nat.shiftRight_eq_div_pow]
  omega

theorem toNat_mod_0x10 (op : Word) : op.toNat % 0x10 = (fieldN op).toNat := by
  simp [fieldN]

theorem toNat_mod_0x100 (op : Word) : op.toNat % 0x100 = (fieldNN op).toNat := by
  simp [fieldNN]

section
variable (op : Word)

theorem illegalZero_iff : illegalZero op.toNat = true ↔
    fieldD1 op = 0x0#4 ∧ op ≠ 0x0000#16 ∧ op ≠ 0x00E0#16 ∧ op ≠ 0x00EE#16 := by
  simp [illegalZero, toNat_div_0x1000, BitVec.toNat_eq, and_assoc]

theorem illegalFive_iff : illegalFive op.toNat = true ↔ fieldD1 op = 0x5#4 ∧ fieldN op ≠ 0x0#4 := by
  simp [illegalFive, toNat_div_0x1000, toNat_mod_0x10, BitVec.toNat_eq]

theorem illegalEight_iff : illegalEight op.toNat = true ↔
    fieldD1 op = 0x8#4 ∧ fieldN op ∈ [0x8#4, 0x9#4, 0xA#4, 0xB#4, 0xC#4, 0xD#4, 0xF#4] := by
  simp [illegalEight, toNat_div_0x1000, toNat_mod_0x10, BitVec.toNat_eq]

theorem illegalNine_iff : illegalNine op.toNat = true ↔ fieldD1 op = 0x9#4 ∧ fieldN op ≠ 0x0#4 := by
  simp [illegalNine, toNat_div_0x1000, toNat_mod_0x10, BitVec.toNat_eq]

theorem illegalE_iff : illegalE op.toNat = true ↔ fieldD1 op = 0xE#4 ∧ fieldNN op ∉ [0x9E#8, 0xA1#8] := by
  simp [illegalE, toNat_div_0x1000, toNat_mod_0x100, BitVec.toNat_eq]

theorem illegalF_iff : illegalF op.toNat = true ↔ fieldD1 op = 0xF#4 ∧
    fieldNN op ∉ [0x07#8, 0x0A#8, 0x15#8, 0x18#8, 0x1E#8, 0x29#8, 0x33#8, 0x55#8, 0x65#8] := by
  simp [illegalF, toNat_div_0x1000, toNat_mod_0x100, BitVec.toNat_eq]

/-- R77's list, line by line, on the fields of R71. -/
theorem legalWord_eq_false_iff : legalWord op = false ↔
    (fieldD1 op = 0x0#4 ∧ op ≠ 0x0000#16 ∧ op ≠ 0x00E0#16 ∧ op ≠ 0x00EE#16) ∨
    (fieldD1 op = 0x5#4 ∧ fieldN op ≠ 0x0#4) ∨
    (fieldD1 op = 0x8#4 ∧ fieldN op ∈ [0x8#4, 0x9#4, 0xA#4, 0xB#4, 0xC#4, 0xD#4, 0xF#4]) ∨
    (fieldD1 op = 0x9#4 ∧ fieldN op ≠ 0x0#4) ∨
    (fieldD1 op = 0xE#4 ∧ fieldNN op ∉ [0x9E#8, 0xA1#8]) ∨
    (fieldD1 op = 0xF#4 ∧
      fieldNN op ∉ [0x07#8, 0x0A#8, 0x15#8, 0x18#8, 0x1E#8, 0x29#8, 0x33#8, 0x55#8, 0x65#8]) := by
  simp only [legalWord, Bool.not_eq_false', Bool.or_eq_true, illegalZero_iff, illegalFive_iff, illegalEight_iff, illegalNine_iff,
    illegalE_iff, illegalF_iff, or_assoc]

end

section
variable {op : Word} {e : DecodeError}

theorem decode0_eq_error_iff : decode0 op = .error e ↔
    (op ≠ 0x0000#16 ∧ op ≠ 0x00E0#16 ∧ op ≠ 0x00EE#16) ∧ e = .unrecognized op := by
  unfold decode0
  split_ifs <;> simp [*, eq_comm]

/-- The values of n that have no arm under d1 = 8. -/
theorem nibble_mem_of_no_arm8 : ∀ n : Nibble, n ≠ 0x0#4 → n ≠ 0x1#4 → n ≠ 0x2#4 → n ≠ 0x3#4 → n ≠ 0x4#4 → n ≠ 0x5#4 →
    n ≠ 0x6#4 → n ≠ 0x7#4 → n ≠ 0xE#4 → n ∈ [0x8#4, 0x9#4, 0xA#4, 0xB#4, 0xC#4, 0xD#4, 0xF#4] := by
  decide

theorem decode8_eq_error_iff : decode8 op = .error e ↔
    fieldN op ∈ [0x8#4, 0x9#4, 0xA#4, 0xB#4, 0xC#4, 0xD#4, 0xF#4] ∧ e = .unrecognized op := by
  unfold decode8
  split
  case h_10 =>
    have hn := nibble_mem_of_no_arm8 (fieldN op) ‹_› ‹_› ‹_› ‹_› ‹_› ‹_› ‹_› ‹_› ‹_›
    simp only [hn, true_and, Except.error.injEq, eq_comm]
  all_goals simp [*]

theorem decodeE_eq_error_iff : decodeE op = .error e ↔ fieldNN op ∉ [0x9E#8, 0xA1#8] ∧ e = .unrecognized op := by
  unfold decodeE
  split <;> simp_all [@eq_comm _ e]

theorem decodeF_eq_error_iff : decodeF op = .error e ↔
    fieldNN op ∉ [0x07#8, 0x0A#8, 0x15#8, 0x18#8, 0x1E#8, 0x29#8, 0x33#8, 0x55#8, 0x65#8] ∧ e = .unrecognized op := by
  unfold decodeF
  split <;> simp_all [@eq_comm _ e]

/-- All sixteen values of d1 have an arm (R76). -/
theorem exists_arm : ∀ d : BitVec 4, d = 0x0#4 ∨ d = 0x1#4 ∨ d = 0x2#4 ∨ d = 0x3#4 ∨ d = 0x4#4 ∨ d = 0x5#4 ∨ d = 0x6#4 ∨
    d = 0x7#4 ∨ d = 0x8#4 ∨ d = 0x9#4 ∨ d = 0xA#4 ∨ d = 0xB#4 ∨ d = 0xC#4 ∨ d = 0xD#4 ∨ d = 0xE#4 ∨ d = 0xF#4 := by
  decide

/-- The decoder refuses the words of R77's list and no other, each with the word itself. The cases are its arms, as in
`encodeOfDecode`. -/
theorem decode_eq_error_iff : decode op = .error e ↔ legalWord op = false ∧ e = .unrecognized op := by
  rw [legalWord_eq_false_iff]
  unfold decode
  split <;> rename_i hd
  case h_1 => simp [hd, decode0_eq_error_iff]
  case h_6 | h_10 => split_ifs with hn <;> simp [hd, hn, @eq_comm _ e]
  case h_9 => simp [hd, decode8_eq_error_iff]
  case h_15 => simp [hd, decodeE_eq_error_iff]
  case h_16 => simp [hd, decodeF_eq_error_iff]
  case h_17 =>
    have := exists_arm (fieldD1 op)
    simp_all
  all_goals simp [hd]

end

/-- Settles O4: a word either decodes or is refused, and `decode_eq_error_iff` says which words are refused. -/
theorem decodeRefusesExactlyIllegalWords : Obligations.DecodeRefusesExactlyIllegalWords := by
  intro op
  refine ⟨?_, by simp [decode_eq_error_iff]⟩
  cases h : decode op with
  | ok i =>
    have hlegal : legalWord op ≠ false := fun hf => by
      simp [decode_eq_error_iff.2 ⟨hf, rfl⟩] at h
    simpa using hlegal
  | error e => simp [(decode_eq_error_iff.1 h).1]

/-! ## The rows of the opcode table -/

/-- The encoder and the table agree on every instruction. -/
theorem row_selects_encode : ∀ i : Instr, EncodesItsRow.Statement i
  | .nop => EncodesItsRow.nop
  | .cls => EncodesItsRow.cls
  | .ret => EncodesItsRow.ret
  | .jpNnn nnn => EncodesItsRow.jpNnn nnn
  | .callNnn nnn => EncodesItsRow.callNnn nnn
  | .seVxNn x nn => EncodesItsRow.seVxNn x nn
  | .sneVxNn x nn => EncodesItsRow.sneVxNn x nn
  | .seVxVy x y => EncodesItsRow.seVxVy x y
  | .ldVxNn x nn => EncodesItsRow.ldVxNn x nn
  | .addVxNn x nn => EncodesItsRow.addVxNn x nn
  | .ldVxVy x y => EncodesItsRow.ldVxVy x y
  | .orVxVy x y => EncodesItsRow.orVxVy x y
  | .andVxVy x y => EncodesItsRow.andVxVy x y
  | .xorVxVy x y => EncodesItsRow.xorVxVy x y
  | .addVxVy x y => EncodesItsRow.addVxVy x y
  | .subVxVy x y => EncodesItsRow.subVxVy x y
  | .shrVxVy x y => EncodesItsRow.shrVxVy x y
  | .subnVxVy x y => EncodesItsRow.subnVxVy x y
  | .shlVxVy x y => EncodesItsRow.shlVxVy x y
  | .sneVxVy x y => EncodesItsRow.sneVxVy x y
  | .ldINnn nnn => EncodesItsRow.ldINnn nnn
  | .jpV0Nnn nnn => EncodesItsRow.jpV0Nnn nnn
  | .rndVxNn x nn => EncodesItsRow.rndVxNn x nn
  | .drwVxVyN x y n => EncodesItsRow.drwVxVyN x y n
  | .skpVx x => EncodesItsRow.skpVx x
  | .sknpVx x => EncodesItsRow.sknpVx x
  | .ldVxDt x => EncodesItsRow.ldVxDt x
  | .ldVxK x => EncodesItsRow.ldVxK x
  | .ldDtVx x => EncodesItsRow.ldDtVx x
  | .ldStVx x => EncodesItsRow.ldStVx x
  | .addIVx x => EncodesItsRow.addIVx x
  | .ldFVx x => EncodesItsRow.ldFVx x
  | .ldBVx x => EncodesItsRow.ldBVx x
  | .ldMemIVx x => EncodesItsRow.ldMemIVx x
  | .ldVxMemI x => EncodesItsRow.ldVxMemI x

section
variable {op m : Word}

theorem fieldD1_and (hm : fieldD1 m = 0xF#4) : fieldD1 (op &&& m) = fieldD1 op := by
  rw [fieldD1, BitVec.extractLsb'_and, ← fieldD1, ← fieldD1, hm]
  exact BitVec.and_allOnes

theorem fieldN_and (hm : fieldN m = 0xF#4) : fieldN (op &&& m) = fieldN op := by
  rw [fieldN, BitVec.extractLsb'_and, ← fieldN, ← fieldN, hm]
  exact BitVec.and_allOnes

theorem fieldNN_and (hm : fieldNN m = 0xFF#8) : fieldNN (op &&& m) = fieldNN op := by
  rw [fieldNN, BitVec.extractLsb'_and, ← fieldNN, ← fieldNN, hm]
  exact BitVec.and_allOnes

end

section
variable {op : Word} {d n : BitVec 4} {nn : Byte}

/-- A word that a row with mask F000 selects has the row's d1 and any operands; the lemmas below say so of the other formats and
masks. -/
theorem word_of_maskNNN (h : op &&& 0xF000#16 = d ++ 0x000#12) : d ++ fieldNNN op = op :=
  word_of_d1 (by rw [← fieldD1_and (m := 0xF000#16) rfl, h, fieldD1_nnn])

theorem word_of_maskXNN (h : op &&& 0xF000#16 = d ++ 0x000#12) : d ++ fieldX op ++ fieldNN op = op := by
  rw [append_nn_eq, nnn_eq_nn, word_of_maskNNN h]

theorem word_of_maskXYN (h : op &&& 0xF000#16 = d ++ 0x000#12) : d ++ fieldX op ++ fieldY op ++ fieldN op = op := by
  rw [append_xyn_eq, nn_eq_yn, word_of_maskXNN h]

theorem word_of_maskXY (h : op &&& 0xF00F#16 = d ++ 0x0#4 ++ 0x0#4 ++ n) : d ++ fieldX op ++ fieldY op ++ n = op :=
  word_of_d1_n (by rw [← fieldD1_and (m := 0xF00F#16) rfl, h, fieldD1_xyn])
    (by rw [← fieldN_and (m := 0xF00F#16) rfl, h, fieldN_xyn])

theorem word_of_maskX (h : op &&& 0xF0FF#16 = d ++ 0x0#4 ++ nn) : d ++ fieldX op ++ nn = op :=
  word_of_d1_nn (by rw [← fieldD1_and (m := 0xF0FF#16) rfl, h, fieldD1_nn])
    (by rw [← fieldNN_and (m := 0xF0FF#16) rfl, h, fieldNN_nn])

theorem word_of_maskAll {bits : Word} (h : op &&& 0xFFFF#16 = bits) : bits = op :=
  h.symm.trans BitVec.and_allOnes

end

/-- Every word that a row selects is the encoding of an instruction of that row: the one with the word's own operands. -/
theorem exists_encode_of_row_selects (op : Word) (j : Instr) (h : op &&& j.row.mask = j.row.bits) :
    ∃ i, encode i = op ∧ j.row = i.row :=
  match j with
  | .nop => ⟨.nop, word_of_maskAll h, rfl⟩
  | .cls => ⟨.cls, word_of_maskAll h, rfl⟩
  | .ret => ⟨.ret, word_of_maskAll h, rfl⟩
  | .jpNnn _ => ⟨.jpNnn (fieldNNN op), word_of_maskNNN h, rfl⟩
  | .callNnn _ => ⟨.callNnn (fieldNNN op), word_of_maskNNN h, rfl⟩
  | .seVxNn _ _ => ⟨.seVxNn (fieldX op) (fieldNN op), word_of_maskXNN h, rfl⟩
  | .sneVxNn _ _ => ⟨.sneVxNn (fieldX op) (fieldNN op), word_of_maskXNN h, rfl⟩
  | .seVxVy _ _ => ⟨.seVxVy (fieldX op) (fieldY op), word_of_maskXY h, rfl⟩
  | .ldVxNn _ _ => ⟨.ldVxNn (fieldX op) (fieldNN op), word_of_maskXNN h, rfl⟩
  | .addVxNn _ _ => ⟨.addVxNn (fieldX op) (fieldNN op), word_of_maskXNN h, rfl⟩
  | .ldVxVy _ _ => ⟨.ldVxVy (fieldX op) (fieldY op), word_of_maskXY h, rfl⟩
  | .orVxVy _ _ => ⟨.orVxVy (fieldX op) (fieldY op), word_of_maskXY h, rfl⟩
  | .andVxVy _ _ => ⟨.andVxVy (fieldX op) (fieldY op), word_of_maskXY h, rfl⟩
  | .xorVxVy _ _ => ⟨.xorVxVy (fieldX op) (fieldY op), word_of_maskXY h, rfl⟩
  | .addVxVy _ _ => ⟨.addVxVy (fieldX op) (fieldY op), word_of_maskXY h, rfl⟩
  | .subVxVy _ _ => ⟨.subVxVy (fieldX op) (fieldY op), word_of_maskXY h, rfl⟩
  | .shrVxVy _ _ => ⟨.shrVxVy (fieldX op) (fieldY op), word_of_maskXY h, rfl⟩
  | .subnVxVy _ _ => ⟨.subnVxVy (fieldX op) (fieldY op), word_of_maskXY h, rfl⟩
  | .shlVxVy _ _ => ⟨.shlVxVy (fieldX op) (fieldY op), word_of_maskXY h, rfl⟩
  | .sneVxVy _ _ => ⟨.sneVxVy (fieldX op) (fieldY op), word_of_maskXY h, rfl⟩
  | .ldINnn _ => ⟨.ldINnn (fieldNNN op), word_of_maskNNN h, rfl⟩
  | .jpV0Nnn _ => ⟨.jpV0Nnn (fieldNNN op), word_of_maskNNN h, rfl⟩
  | .rndVxNn _ _ => ⟨.rndVxNn (fieldX op) (fieldNN op), word_of_maskXNN h, rfl⟩
  | .drwVxVyN _ _ _ => ⟨.drwVxVyN (fieldX op) (fieldY op) (fieldN op), word_of_maskXYN h, rfl⟩
  | .skpVx _ => ⟨.skpVx (fieldX op), word_of_maskX h, rfl⟩
  | .sknpVx _ => ⟨.sknpVx (fieldX op), word_of_maskX h, rfl⟩
  | .ldVxDt _ => ⟨.ldVxDt (fieldX op), word_of_maskX h, rfl⟩
  | .ldVxK _ => ⟨.ldVxK (fieldX op), word_of_maskX h, rfl⟩
  | .ldDtVx _ => ⟨.ldDtVx (fieldX op), word_of_maskX h, rfl⟩
  | .ldStVx _ => ⟨.ldStVx (fieldX op), word_of_maskX h, rfl⟩
  | .addIVx _ => ⟨.addIVx (fieldX op), word_of_maskX h, rfl⟩
  | .ldFVx _ => ⟨.ldFVx (fieldX op), word_of_maskX h, rfl⟩
  | .ldBVx _ => ⟨.ldBVx (fieldX op), word_of_maskX h, rfl⟩
  | .ldMemIVx _ => ⟨.ldMemIVx (fieldX op), word_of_maskX h, rfl⟩
  | .ldVxMemI _ => ⟨.ldVxMemI (fieldX op), word_of_maskX h, rfl⟩

/-- Settles O5: the words of a row are the encodings of its instructions, and decoding inverts encoding both ways. -/
theorem opcodeRowSelectsDecodedWord : Obligations.OpcodeRowSelectsDecodedWord := by
  intro op j
  constructor
  · intro h
    obtain ⟨i, rfl, hrow⟩ := exists_encode_of_row_selects op j h
    exact ⟨i, decodeOfEncode i, hrow⟩
  · rintro ⟨i, hi, hrow⟩
    rw [hrow, ← encodeOfDecode op i hi]
    simpa [EncodesItsRow.Statement, OpcodeRow.selects] using row_selects_encode i

/-! ## Sample words -/

/-- Settles O1, by evaluation of the decoder on the thirteen words. -/
theorem sampleWordsDecode : Obligations.SampleWordsDecode := by
  unfold Obligations.SampleWordsDecode
  decide

end Sys2Proof
end

section
/-! SUPPORT. Every host command answers a next state (40_cycle_and_ports.md R90 to R102, 60_exceptions.md R214). -/

namespace Sys2Proof.Machine

/-- The command STEP(rnd) answers a next state, as the STEP cycle does. -/
theorem stepWith_answers_next (r : Byte) (s : State) : ∃ t, stepWith r s = .next t := by
  obtain ⟨u, hu⟩ := step_answers_next (s.setRnd (some r))
  exact ⟨u.setRnd s.rnd, stepWith_eq_next.2 ⟨u, hu, rfl⟩⟩

/-- Settles O13, command by command. -/
theorem everyCommandAnswersNextState : Obligations.EveryCommandAnswersNextState := by
  intro c s
  cases c with
  | step r => exact stepWith_answers_next r s
  | reset | load | setKey | tick | readFb => exact ⟨_, rfl⟩

end Sys2Proof.Machine
end

section
/-! SUPPORT. The STEP cycle (40_cycle_and_ports.md R92 to R97): an equation for each of its four cases, and the command STEP, which differs from
`step` only where an RND stands at pc (R37, R143). -/

namespace Sys2Proof.Machine

/-- The next STEP executes an RND, the one instruction that reads the rnd input (R143). -/
def State.runsRnd (s : State) : Prop :=
  s.fault = none ∧ s.pc.toNat ≤ lastFetch ∧ ∃ x nn, decode (s.fetchWord s.pc) = .ok (.rndVxNn x nn)

section
variable {s t : State}

/-! ## The four cases of a STEP -/

/-- R92. -/
theorem step_of_latched {f : FaultRecord} (hf : s.fault = some f) : step s = .next s := by
  simp only [step, hf]

/-- R94. -/
theorem step_of_pc_out_of_range (hf : s.fault = none) (hp : lastFetch < s.pc.toNat) :
    step s = .next (s.raise .pcOutOfRange s.pc 0#16) := by
  simp only [step, hf, if_neg (Nat.not_le.2 hp)]

/-- R212. -/
theorem step_of_illegal (hf : s.fault = none) (hp : s.pc.toNat ≤ lastFetch) {e : DecodeError}
    (he : decode (s.fetchWord s.pc) = .error e) :
    step s = .next (s.advance.raise .unimplemented s.pc (s.fetchWord s.pc)) := by
  simp [step, hf, hp, State.runWord, he]

/-- R93, R95 and R96. -/
theorem step_of_decode (hf : s.fault = none) (hp : s.pc.toNat ≤ lastFetch) {i : Instr}
    (hi : decode (s.fetchWord s.pc) = .ok i) : step s = exec i s.advance := by
  simp only [step, hf, if_pos hp, State.runWord, hi]

/-- R143: an RND writes the byte at the rnd input, or the free one, AND nn. -/
theorem step_of_rnd {x : Reg} {nn : Byte} (hf : s.fault = none) (hp : s.pc.toNat ≤ lastFetch)
    (hi : decode (s.fetchWord s.pc) = .ok (.rndVxNn x nn)) :
    step s = .next (s.advance.setReg x (s.rndByte &&& nn)).countDraw := by
  rw [step_of_decode hf hp hi]; rfl

/-! ## The command STEP -/

theorem ne_rnd_of_not_runsRnd (hs : ¬ s.runsRnd) (hf : s.fault = none) (hp : s.pc.toNat ≤ lastFetch) {i : Instr}
    (hi : decode (s.fetchWord s.pc) = .ok i) : ∀ x nn, i ≠ .rndVxNn x nn := by
  rintro x nn rfl
  exact hs ⟨hf, hp, x, nn, hi⟩

/-- R37: where no RND runs, a STEP does the same whatever the rnd input holds. -/
theorem step_setRnd (hs : ¬ s.runsRnd) (r : Option Byte) (h : step s = .next t) :
    step (s.setRnd r) = .next (t.setRnd r) := by
  rcases step_cases h with ⟨f, hf, rfl⟩ | ⟨hf, hp, rfl⟩ | ⟨hf, hp, ⟨e, he⟩, rfl⟩ | ⟨hf, hp, i, hi, hexec⟩
  · exact step_of_latched (s := t.setRnd r) hf
  · rw [step_of_pc_out_of_range (s := s.setRnd r) hf hp, setRnd_raise]; rfl
  · rw [step_of_illegal (s := s.setRnd r) hf hp he, ← setRnd_raise]; rfl
  · rw [step_of_decode (s := s.setRnd r) hf hp hi]
    exact exec_setRnd (ne_rnd_of_not_runsRnd hs hf hp hi) r hexec

/-- Where no RND runs, the host's byte makes no difference. -/
theorem stepWith_eq_step (hs : ¬ s.runsRnd) (r : Byte) : stepWith r s = step s := by
  obtain ⟨t, ht⟩ := step_answers_next s
  have hrnd : (t.setRnd (some r)).setRnd s.rnd = t := by rw [← step_keeps_rnd ht]; rfl
  rw [ht, stepWith_eq_next]
  exact ⟨t.setRnd (some r), step_setRnd hs _ ht, hrnd.symm⟩

/-- R143: an RND under the command STEP writes the host's byte AND nn, and draws no free byte. -/
theorem stepWith_of_rnd {x : Reg} {nn : Byte} (hf : s.fault = none) (hp : s.pc.toNat ≤ lastFetch)
    (hi : decode (s.fetchWord s.pc) = .ok (.rndVxNn x nn)) (r : Byte) :
    stepWith r s = .next (s.advance.setReg x (r &&& nn)) :=
  stepWith_eq_next.2 ⟨_, step_of_rnd (s := s.setRnd (some r)) hf hp hi, rfl⟩

/-! ## The count of draws -/

/-- Only an RND counts a draw. -/
theorem exec_keeps_draws {i : Instr} (hi : ∀ x nn, i ≠ .rndVxNn x nn) (h : exec i s = .next t) : t.draws = s.draws := by
  cases exec_effect h with
  | random x nn => exact absurd rfl (hi x nn)
  | fault => exact raise_draws ..
  | _ => simp

theorem step_keeps_draws (hs : ¬ s.runsRnd) (h : step s = .next t) : t.draws = s.draws := by
  rcases step_cases h with ⟨_, _, rfl⟩ | ⟨_, _, rfl⟩ | ⟨_, _, _, rfl⟩ | ⟨hf, hp, i, hi, hexec⟩
  · rfl
  · exact raise_draws ..
  · exact raise_draws ..
  · exact exec_keeps_draws (s := s.advance) (ne_rnd_of_not_runsRnd hs hf hp hi) hexec

end

/-- Settles O8: without an RND the two are equal, and with one both write the free byte of this draw and `step` counts it. -/
theorem stepIsCommandWithFreeByte : Obligations.StepIsCommandWithFreeByte := by
  intro s hrnd
  by_cases hs : s.runsRnd
  · obtain ⟨hf, hp, x, nn, hi⟩ := hs
    refine ⟨_, stepWith_of_rnd hf hp hi _, rfl, .inr ?_⟩
    rw [step_of_rnd hf hp hi]
    simp [State.rndByte, State.countDraw, hrnd]
  · obtain ⟨t, ht⟩ := step_answers_next s
    exact ⟨t, (stepWith_eq_step hs _).trans ht, step_keeps_draws hs ht, .inl ht⟩

/-- Settles O6. -/
theorem stepRunsDecodedInstruction : Obligations.StepRunsDecodedInstruction := by
  intro s i hf hp hi
  refine ⟨step_of_decode hf hp hi, fun r => ?_⟩
  obtain ⟨t, ht⟩ := exec_answers_next i (s.setRnd (some r)).advance
  have hstep : step (s.setRnd (some r)) = .next t := (step_of_decode (s := s.setRnd (some r)) hf hp hi).trans ht
  exact ⟨t, ht, stepWith_eq_next.2 ⟨t, hstep, rfl⟩⟩

/-- Settles O14: the jump sets pc to the address it was fetched from, and nothing else has changed. -/
theorem selfJumpIsFixedPoint : Obligations.SelfJumpIsFixedPoint := by
  rintro s ⟨hf, hp, nnn, hword, haddr⟩
  have hi : decode (s.fetchWord s.pc) = .ok (.jpNnn nnn) := hword ▸ decodeOfEncode (.jpNnn nnn)
  have hpc : zextAddr nnn = s.pc := BitVec.eq_of_toNat_eq ((zextAddr_toNat nnn).trans haddr)
  have hstep : step s = .next s := by
    rw [step_of_decode hf hp hi]
    simp only [exec, execJpNnn, hpc]
    rfl
  have hs : ¬ s.runsRnd := by
    rintro ⟨_, _, x, nn, hrnd⟩
    simp [hi] at hrnd
  exact ⟨hstep, fun r => (stepWith_eq_step hs r).trans hstep⟩

end Sys2Proof.Machine
end

section
/-! SUPPORT. Frames: `ChangesOnly` composes, and which parts a fault, the fetch and a list of byte writes may change (00_scope.md R11). -/

namespace Sys2Proof.Machine

section
variable {s t u : State} {may may' : Part → Prop}

theorem Part.same_trans {q : Part} (h : q.same s t) (h' : q.same t u) : q.same s u := by
  cases q <;> exact Eq.trans h' h

theorem ChangesOnly.trans (h : ChangesOnly s t may) (h' : ChangesOnly t u may') :
    ChangesOnly s u (fun q => may q ∨ may' q) :=
  fun q hq => Part.same_trans (h q fun hm => hq (.inl hm)) (h' q fun hm => hq (.inr hm))

theorem ChangesOnly.mono (h : ChangesOnly s t may) (hm : ∀ q, may q → may' q) : ChangesOnly s t may' :=
  fun q hq => h q fun hq' => hq (hm q hq')

end

/-- R214. -/
theorem changesOnly_raise (s : State) (c : FaultCause) (a w : Word) : ChangesOnly s (s.raise c a w) (fun q => q = .fault) := by
  intro q hq
  cases q with
  | fault => exact absurd rfl hq
  | _ => simp [Part.same]

/-- R95. -/
theorem changesOnly_advance (s : State) : ChangesOnly s s.advance (fun q => q = .pc) := by
  intro q hq
  cases q with
  | pc => exact absurd rfl hq
  | _ => simp [Part.same]

/-- R52 and R54: the bytes written are those at a, a + 1, ... mod 4096. -/
theorem changesOnly_writeBytes (s : State) (a : Nat) (bytes : List Byte) :
    ChangesOnly s (s.writeBytes a bytes) (fun q => ∃ k < bytes.length, q = .atAddress (a + k)) := by
  intro q hq
  cases q with
  | byte b =>
    refine readByte_writeBytes_other _ _ _ _ fun k hk hmod => hq ⟨k, hk, ?_⟩
    rw [Nat.mod_eq_of_lt (show b.val < memSize from b.isLt)] at hmod
    exact congrArg Part.byte (Fin.ext hmod)
  | _ => simp [Part.same]

/-- Settles O10. -/
theorem fetchOutOfRangeFaults : Obligations.FetchOutOfRangeFaults := by
  intro s hf hp
  have hstep := step_of_pc_out_of_range hf hp
  have hs : ¬ s.runsRnd := fun ⟨_, hle, _⟩ => Nat.not_le.2 hp hle
  exact ⟨_, hstep, fun r => (stepWith_eq_step hs r).trans hstep, by rw [raise_fault, hf]; rfl, changesOnly_raise s _ _ _⟩

/-! ## A placed word (log 10) -/

/-- A word of 16 bits does not see a reduction mod 2^16. -/
theorem ofNat_mod_word (n : Nat) : BitVec.ofNat 16 (n % 2 ^ 16) = (BitVec.ofNat 16 n : Word) := by
  apply BitVec.eq_of_toNat_eq
  simp

theorem readyToFetch_pc_le (s : State) : s.readyToFetch.pc.toNat ≤ lastFetch := by
  simp only [State.readyToFetch]
  split
  · assumption
  · decide

theorem changesOnly_readyToFetch (s : State) : ChangesOnly s s.readyToFetch (fun q => q = .pc ∨ q = .fault) := by
  intro q hq
  cases q with
  | pc => exact absurd (.inl rfl) hq
  | fault => exact absurd (.inr rfl) hq
  | _ => rfl

theorem withFetchWord_eq_writeBytes (s : State) (op : Word) :
    s.withFetchWord 16 op.toNat = s.readyToFetch.writeBytes s.readyToFetch.pc.toNat (wordBytes op) := by
  rw [State.withFetchWord, ofNat_mod_word, BitVec.ofNat_toNat, BitVec.setWidth_eq]

/-- R53 and R54. -/
theorem changesOnly_writeBytes_wordBytes (s : State) (a : Nat) (op : Word) :
    ChangesOnly s (s.writeBytes a (wordBytes op)) (fun q => q = .atAddress a ∨ q = .atAddress (a + 1)) := by
  refine (changesOnly_writeBytes s a (wordBytes op)).mono ?_
  rintro q ⟨k, hk, rfl⟩
  obtain rfl | rfl : k = 0 ∨ k = 1 := by simp only [wordBytes, List.length_cons, List.length_nil] at hk; omega
  · exact .inl rfl
  · exact .inr rfl

/-- R53: the two bytes of a word written at pc are the next word fetched. -/
theorem fetchWord_writeBytes_wordBytes (s : State) (op : Word) :
    (s.writeBytes s.pc.toNat (wordBytes op)).fetchWord s.pc = op := by
  have hread := readByte_writeBytes (wordBytes op) (by simp [wordBytes, memSize]) s s.pc.toNat
  have hhigh : (s.writeBytes s.pc.toNat (wordBytes op)).readByte s.pc.toNat = op.extractLsb' 8 8 := hread 0 (by simp [wordBytes])
  have hlow : (s.writeBytes s.pc.toNat (wordBytes op)).readByte (s.pc.toNat + 1) = op.extractLsb' 0 8 := hread 1 (by simp [wordBytes])
  rw [State.fetchWord, hhigh, hlow, wordBytes_append]

/-- Settles O9: t is the placed state after the fetch. -/
theorem placedWordRunsNext : Obligations.PlacedWordRunsNext := by
  intro s op i hi
  rw [withFetchWord_eq_writeBytes]
  set ready := s.readyToFetch
  set placed := ready.writeBytes ready.pc.toNat (wordBytes op)
  have hf : placed.fault = none := writeBytes_fault ..
  have hpc : placed.pc = ready.pc := writeBytes_pc ..
  have hp : placed.pc.toNat ≤ lastFetch := hpc ▸ readyToFetch_pc_le s
  have hword : placed.fetchWord placed.pc = op := hpc ▸ fetchWord_writeBytes_wordBytes ready op
  refine ⟨placed.advance, step_of_decode hf hp (hword ▸ hi), hf, rfl, ?_⟩
  have hframe := ((changesOnly_readyToFetch s).trans (changesOnly_writeBytes_wordBytes ready ready.pc.toNat op)).trans
    (changesOnly_advance placed)
  rw [advance_pc_toNat hp, hpc]
  refine hframe.mono ?_
  rintro q (((rfl | rfl) | rfl | rfl) | rfl) <;> simp

end Sys2Proof.Machine
end

section
/-! SUPPORT. The host commands: what LOAD and SET_KEY can do, the latch under every command but RESET (R92, R98, R199, R215), the pixels that
READ_FB answers (R99), and the invariant along every run (R91). -/

namespace Sys2Proof.Machine

/-! ## LOAD and SET_KEY -/

/-- R98: the image at 0x200, or the fault with no byte written. -/
theorem doLoad_cases (s : State) (bytes : List Byte) :
    (bytes.length ≤ maxImage ∧ s.doLoad bytes = s.writeBytes progBase bytes) ∨
    (maxImage < bytes.length ∧ s.doLoad bytes = s.raise .loadOutOfBounds s.pc (BitVec.ofNat 16 bytes.length)) := by
  unfold State.doLoad
  split
  next h => exact .inl ⟨h, rfl⟩
  next h => exact .inr ⟨Nat.not_le.1 h, rfl⟩

/-- R199: the level of a key number of 15 or less, or the fault. -/
theorem doSetKey_cases (s : State) (index : Nat) (pressed : Bool) :
    (∃ k : Fin 16, index = k.val ∧ s.doSetKey index pressed = s.setKey k pressed) ∨
    (15 < index ∧ s.doSetKey index pressed = s.raise .keyIndexOutOfRange s.pc (BitVec.ofNat 16 index)) := by
  unfold State.doSetKey
  split
  next h => exact .inl ⟨⟨index, h⟩, rfl, rfl⟩
  next h => exact .inr ⟨by omega, rfl⟩

/-- Settles O46, by the two cases of a LOAD. -/
theorem loadWritesImage : Obligations.LoadWritesImage := by
  intro s bytes
  rcases doLoad_cases s bytes with ⟨hlen, h⟩ | ⟨hlen, h⟩ <;> simp only [maxImage] at hlen
  · refine ⟨fun _ => ⟨_, congrArg Host.Outcome.next h, ?_, changesOnly_writeBytes s progBase bytes⟩, fun hlt => by omega⟩
    exact readByte_writeBytes bytes (by simp only [memSize]; omega) s progBase
  · refine ⟨fun hle => by omega, fun _ => ⟨_, congrArg Host.Outcome.next h, ?_, changesOnly_raise s _ _ _⟩⟩
    rw [ofNat_mod_word]
    exact raise_fault ..

/-! ## The latch -/

theorem raise_of_latched {s : State} {f : FaultRecord} (hf : s.fault = some f) (c : FaultCause) (a w : Word) :
    s.raise c a w = s := by
  simp only [State.raise, hf]

/-- R215: no command but RESET clears the latch or replaces what it holds. -/
theorem runCommand_keeps_latched {c : Command} {s t : State} {f : FaultRecord} (hf : s.fault = some f) (hc : c ≠ .reset)
    (h : runCommand c s = .next t) : t.fault = some f := by
  cases c with
  | reset => exact absurd rfl hc
  | load bytes =>
    cases h
    rcases doLoad_cases s bytes with ⟨_, h⟩ | ⟨_, h⟩ <;> rw [h]
    · rw [writeBytes_fault, hf]
    · rw [raise_of_latched hf, hf]
  | setKey index pressed =>
    cases h
    rcases doSetKey_cases s index pressed with ⟨k, _, h⟩ | ⟨_, h⟩ <;> rw [h]
    · rw [setKey_fault, hf]
    · rw [raise_of_latched hf, hf]
  | step r =>
    obtain ⟨u, hu, rfl⟩ := stepWith_eq_next.1 h
    rw [step_of_latched (s := s.setRnd (some r)) hf] at hu
    cases hu
    exact hf
  | tick => cases h; exact hf
  | readFb => cases h; exact hf

/-- Settles O12. -/
theorem faultedStepChangesNothing : Obligations.FaultedStepChangesNothing := by
  intro s f hf
  have hs : ¬ s.runsRnd := fun ⟨hnone, _⟩ => by simp [hf] at hnone
  refine ⟨step_of_latched hf, fun r => ⟨(stepWith_eq_step hs r).trans (step_of_latched hf), hf⟩, fun c t h => ?_⟩
  constructor
  · intro hnone
    by_contra hc
    simp [runCommand_keeps_latched hf hc h] at hnone
  · rintro rfl
    cases h
    rfl

/-! ## READ_FB -/

section
variable (x : Fin 64) (y : Fin 32)

theorem wrapColumn_rowMajor : wrapColumn (y.val * 64 + x.val) = x := by
  apply Fin.ext; simp only [wrapColumn]; omega

theorem wrapRow_rowMajor : wrapRow ((y.val * 64 + x.val) / 64) = y := by
  apply Fin.ext; simp only [wrapRow]; omega

end

/-- R99: the element k is the pixel of column k mod 64 and row k / 64. -/
theorem framebufferBits_eq_ofFn (s : State) :
    s.framebufferBits =
      List.ofFn fun k : Fin (32 * 64) => Framebuffer.pixel s.fb (wrapColumn k.val) (wrapRow (k.val / 64)) := by
  rw [List.ofFn_mul]
  simp only [wrapColumn_rowMajor, wrapRow_rowMajor, List.ofFn_eq_map, State.framebufferBits, List.flatMap_def]

/-- Settles O47. -/
theorem readFramebufferAnswersPixels : Obligations.ReadFramebufferAnswersPixels := by
  intro s
  refine ⟨rfl, s.framebufferBits, rfl, ?_, fun x y => ?_⟩
  · rw [framebufferBits_eq_ofFn, List.length_ofFn]
  · have hlt : y.val * 64 + x.val < 32 * 64 := by omega
    rw [framebufferBits_eq_ofFn, List.getElem?_ofFn, dif_pos hlt]
    simp only [wrapColumn_rowMajor, wrapRow_rowMajor]

/-! ## The invariant -/

/-- The invariant speaks of memory, the parameters, the latch, pc, the stack and the rnd input only. -/
theorem Inv.congr {s t : State} (hs : Inv s) (hmem : t.mem = s.mem) (hconfig : t.config = s.config) (hfault : t.fault = s.fault)
    (hpc : t.pc = s.pc) (hstack : t.stack = s.stack) (hrnd : t.rnd = s.rnd) : Inv t where
  memory := by rw [hmem, hconfig]; exact hs.memory
  font a := by simpa only [State.readByte, hmem, hconfig] using hs.font a
  latch := by rw [hfault]; exact hs.latch
  pc := by rw [hpc]; exact hs.pc
  stack := by rw [hstack]; exact hs.stack
  rnd := hrnd.trans hs.rnd

theorem doLoad_inv {s : State} (hs : Inv s) (bytes : List Byte) : Inv (s.doLoad bytes) := by
  rcases doLoad_cases s bytes with ⟨_, h⟩ | ⟨_, h⟩
  · have hfont : ∀ a : Fin 80, (s.doLoad bytes).readByte a.val = s.config.font[a.val] := fun a =>
      (doLoad_keeps_font_bytes s bytes a.isLt).trans (hs.font a)
    rw [h] at hfont ⊢
    exact
      { memory := writeBytes_wf _ _ _ hs.memory
        font := by simpa using hfont
        latch := by simpa using hs.latch
        pc := by simpa using hs.pc
        stack := by simpa using hs.stack
        rnd := by simpa using hs.rnd }
  · rw [h]; exact raise_inv hs ..

theorem doSetKey_inv {s : State} (hs : Inv s) (index : Nat) (pressed : Bool) : Inv (s.doSetKey index pressed) := by
  rcases doSetKey_cases s index pressed with ⟨k, _, h⟩ | ⟨_, h⟩ <;> rw [h]
  · exact hs.congr rfl rfl rfl rfl rfl rfl
  · exact raise_inv hs ..

/-- The command STEP keeps the invariant: it is `step`, or an RND, which writes a register of the state after the fetch. -/
theorem stepWith_inv {s t : State} (hs : Inv s) {r : Byte} (h : stepWith r s = .next t) : Inv t := by
  by_cases hrnd : s.runsRnd
  · obtain ⟨hf, hp, x, nn, hi⟩ := hrnd
    rw [stepWith_of_rnd hf hp hi] at h
    cases h
    exact (advance_inv hs hp).congr rfl rfl rfl rfl rfl rfl
  · exact stepKeepsInvariant s t hs ((stepWith_eq_step hrnd r).symm.trans h)

theorem runCommand_inv {c : Command} {s t : State} (hs : Inv s) (h : runCommand c s = .next t) : Inv t := by
  cases c with
  | reset => cases h; exact (resetMeetsInvariant s.config).congr rfl rfl rfl rfl rfl rfl
  | load bytes => cases h; exact doLoad_inv hs bytes
  | setKey index pressed => cases h; exact doSetKey_inv hs index pressed
  | step r => exact stepWith_inv hs h
  | tick => cases h; exact hs.congr rfl rfl rfl rfl rfl rfl
  | readFb => cases h; exact hs

/-- R91: a run is its first command and then the rest. -/
theorem runCommands_cons_eq_next {c : Command} {cs : List Command} {s t : State} :
    runCommands (c :: cs) s = .next t ↔ ∃ u, runCommand c s = .next u ∧ runCommands cs u = .next t := by
  obtain ⟨u, hu⟩ := everyCommandAnswersNextState c s
  simp [runCommands, hu]

/-- Settles O60, by induction over the commands. -/
theorem everyRunKeepsInvariant : Obligations.EveryRunKeepsInvariant := by
  intro cs
  induction cs with
  | nil => intro s t hs h; cases h; exact hs
  | cons c cs ih =>
    intro s t hs h
    obtain ⟨u, hu, hrest⟩ := runCommands_cons_eq_next.1 h
    exact ih u t (runCommand_inv hs hu) hrest

end Sys2Proof.Machine
end

section
/-! SUPPORT. Which words are the control flow instructions (30_encoding.md R76, R77): a word decodes to an instruction exactly when it is its
encoding, and the illegal words 0nnn, 5xyN and 9xyN. -/

namespace Sys2Proof

/-- R76: an instruction has one spelling. -/
theorem decode_eq_ok_iff {op : Word} {i : Instr} : decode op = .ok i ↔ op = encode i := by
  constructor
  · exact fun h => (encodeOfDecode op i h).symm
  · rintro rfl
    exact decodeOfEncode i

theorem append_nnn_ne {d : BitVec 4} {nnn : Addr12} {op : Word} (h : nnn ≠ fieldNNN op) : d ++ nnn ≠ op := by
  rintro rfl
  exact h (fieldNNN_nnn d nnn).symm

/-- R77, first line. -/
theorem decode_0nnn_eq_error {nnn : Addr12} (hnop : nnn ≠ 0x000) (hcls : nnn ≠ 0x0E0) (hret : nnn ≠ 0x0EE) :
    decode (0x0#4 ++ nnn) = .error (.unrecognized (0x0#4 ++ nnn)) := by
  have hillegal : legalWord (0x0#4 ++ nnn) = false := (legalWord_eq_false_iff _).2
    (.inl ⟨fieldD1_nnn _ _, append_nnn_ne hnop, append_nnn_ne hcls, append_nnn_ne hret⟩)
  exact decode_eq_error_iff.2 ⟨hillegal, rfl⟩

/-- R77, second and fourth line. -/
theorem decode_xyn_eq_error {d : BitVec 4} (hd : d = 0x5#4 ∨ d = 0x9#4) (x y : Reg) {n : Nibble} (hn : n ≠ 0x0#4) :
    decode (d ++ x ++ y ++ n) = .error (.unrecognized (d ++ x ++ y ++ n)) := by
  refine decode_eq_error_iff.2 ⟨(legalWord_eq_false_iff _).2 ?_, rfl⟩
  rcases hd with rfl | rfl <;> simp [hn]

end Sys2Proof
end

section
/-! SUPPORT. What the updates of the control flow instructions and a fault of the executing instruction change (00_scope.md R11). -/

namespace Sys2Proof.Machine

section
variable (s : State)

/-- R10. -/
theorem changesOnly_setPc (p : Word) : ChangesOnly s (s.setPc p) (fun q => q = .pc) := by
  intro q hq
  cases q with
  | pc => exact absurd rfl hq
  | _ => simp [Part.same]

/-- R119. -/
theorem changesOnly_skipIf (taken : Bool) : ChangesOnly s (s.skipIf taken) (fun q => q = .pc) := by
  cases taken with
  | false => exact fun q _ => by cases q <;> rfl
  | true => exact changesOnly_setPc s _

/-- R29: the entry at sp is written, and no other. -/
theorem changesOnly_push (w : Word) (h : s.sp.val < stackDepth) :
    ChangesOnly s (s.push w h) (fun q => q = .stackEntry ⟨s.sp.val, h⟩ ∨ q = .sp) := by
  intro q hq
  cases q with
  | sp => exact absurd (.inr rfl) hq
  | stackEntry j =>
    have hj : s.sp.val ≠ j.val := fun heq => hq (.inl (congrArg Part.stackEntry (Fin.ext heq.symm)))
    exact Vector.getElem_set_ne h j.isLt hj
  | _ => simp [Part.same]

/-- R111: the popped entry keeps its value. -/
theorem changesOnly_popPc (h : 0 < s.sp.val) : ChangesOnly s (s.popPc h) (fun q => q = .sp ∨ q = .pc) := by
  intro q hq
  cases q with
  | sp => exact absurd (.inl rfl) hq
  | pc => exact absurd (.inr rfl) hq
  | _ => simp [Part.same]

end

/-! ## Outcomes that several instructions share -/

section
variable {s : State} {i : Instr}

/-- R211 and R214: the latch after a fault of the instruction i, and nothing else changed. -/
theorem exec_fault_spec {c : FaultCause} (h : exec i s = .next (s.raiseInstr c i)) :
    ∃ t, exec i s = .next t ∧ t.fault = some (s.fault.getD ⟨c.kind, c, s.pc - 2, encode i⟩) ∧
      ChangesOnly s t (fun q => q = .fault) :=
  ⟨_, h, raise_fault .., changesOnly_raise s _ _ _⟩

/-- R119: a skip is taken where P holds and not taken where Q does. -/
theorem exec_skip_spec {P Q : Prop} {taken : Bool} (h : exec i s = .next (s.skipIf taken))
    (htaken : P → taken = true) (hnot : Q → taken = false) :
    ∃ t, exec i s = .next t ∧ (P → t.pc = s.pc + 2) ∧ (Q → t.pc = s.pc) ∧ ChangesOnly s t (fun q => q = .pc) := by
  refine ⟨_, h, fun hP => ?_, fun hQ => ?_, changesOnly_skipIf s taken⟩
  · rw [htaken hP]; rfl
  · rw [hnot hQ]; rfl

/-- R112 and R118: pc after a jump to p, and the fetch fault of R94 when p is too high. -/
theorem exec_jump_spec {p : Word} {n : Nat} (h : exec i s = .next (s.setPc p)) (hp : p.toNat = n) :
    ∃ t, exec i s = .next t ∧ t.pc.toNat = n ∧ ChangesOnly s t (fun q => q = .pc) ∧
      (s.fault = none → 0xFFE < n →
        ∃ u, step t = .next u ∧ u.fault = some ⟨.machineFault, .pcOutOfRange, t.pc, 0x0000#16⟩) := by
  subst hp
  refine ⟨_, h, rfl, changesOnly_setPc s p, fun hf hhigh => ?_⟩
  obtain ⟨u, hstep, _, hfault, _⟩ := fetchOutOfRangeFaults (s.setPc p) hf hhigh
  exact ⟨u, hstep, hfault⟩

end

end Sys2Proof.Machine
end

section
/-! SUPPORT. The control flow instructions (41_control_flow.md): jumps, skips, calls and returns. -/

namespace Sys2Proof.Machine

/-! ## NOP, jumps and skips -/

/-- Settles O16. -/
theorem nopChangesNothing : Obligations.NopChangesNothing :=
  ⟨fun _ => decode_eq_ok_iff, fun _ => decode_0nnn_eq_error, fun _ => rfl⟩

/-- Settles O18. -/
theorem jumpSetsPc : Obligations.JumpSetsPc := fun nnn =>
  ⟨decodeOfEncode (.jpNnn nnn), fun _ => exec_jump_spec rfl (zextAddr_toNat nnn)⟩

/-- Settles O23: the sum fits 16 bits, so the jump goes to it exactly. -/
theorem offsetJumpAddsV0 : Obligations.OffsetJumpAddsV0 := fun nnn =>
  ⟨decodeOfEncode (.jpV0Nnn nnn), fun s => exec_jump_spec rfl (zextByte_add_zextAddr_toNat (s.reg 0#4) nnn)⟩

/-- Settles O21. -/
theorem immediateSkips : Obligations.ImmediateSkips := by
  intro x nn
  refine ⟨decodeOfEncode (.seVxNn x nn), decodeOfEncode (.sneVxNn x nn), fun s => ⟨?_, ?_⟩⟩
  · exact exec_skip_spec rfl beq_iff_eq.2 beq_eq_false_iff_ne.2
  · exact exec_skip_spec rfl bne_iff_ne.2 bne_eq_false_iff_eq.2

/-- Settles O22. -/
theorem registerSkips : Obligations.RegisterSkips := by
  intro x y
  refine ⟨decodeOfEncode (.seVxVy x y), decodeOfEncode (.sneVxVy x y), fun n hn => ⟨?_, ?_⟩, fun s => ⟨?_, ?_⟩⟩
  · exact decode_xyn_eq_error (.inl rfl) x y hn
  · exact decode_xyn_eq_error (.inr rfl) x y hn
  · exact exec_skip_spec rfl beq_iff_eq.2 beq_eq_false_iff_ne.2
  · exact exec_skip_spec rfl bne_iff_ne.2 bne_eq_false_iff_eq.2

/-! ## Calls and returns -/

section
variable {s : State}

theorem exec_ret_of_pos (h : 0 < s.sp.val) : exec .ret s = .next (s.popPc h) := dif_pos h

theorem exec_ret_of_empty (h : s.sp.val = 0) : exec .ret s = .next (s.raiseInstr .stackUnderflow .ret) :=
  dif_neg (by omega)

theorem exec_callNnn_of_room (nnn : Addr12) (h : s.sp.val < stackDepth) :
    exec (.callNnn nnn) s = .next ((s.push s.pc h).setPc (zextAddr nnn)) := dif_pos h

theorem exec_callNnn_of_full (nnn : Addr12) (h : s.sp.val = stackDepth) :
    exec (.callNnn nnn) s = .next (s.raiseInstr .stackOverflow (.callNnn nnn)) := dif_neg (by omega)

end

/-- Settles O17, by whether there is an entry to pop. -/
theorem returnPopsPc : Obligations.ReturnPopsPc := by
  refine ⟨fun _ => decode_eq_ok_iff, fun s j hj => ?_, fun s hempty => ?_⟩
  · have hpos : 0 < s.sp.val := by omega
    have hentry : s.sp.val - 1 = j.val := by omega
    refine ⟨_, exec_ret_of_pos hpos, hentry, ?_, changesOnly_popPc s hpos⟩
    simp only [popPc_pc, hentry]
  · exact exec_fault_spec (exec_ret_of_empty hempty)

/-- Settles O19, by whether there is a free slot. -/
theorem callPushesReturnAddress : Obligations.CallPushesReturnAddress := by
  intro nnn
  refine ⟨decodeOfEncode (.callNnn nnn), fun s ⟨k, hroom⟩ hk => ?_, fun s hfull => ?_⟩
  · obtain rfl : s.sp.val = k := hk
    refine ⟨_, exec_callNnn_of_room nnn hroom, ?_, rfl, zextAddr_toNat nnn, ?_⟩
    · exact Vector.getElem_set_self hroom
    · exact ((changesOnly_push s s.pc hroom).trans (changesOnly_setPc _ _)).mono fun _ => or_assoc.1
  · exact exec_fault_spec (exec_callNnn_of_full nnn hfull)

/-- Settles O20: the entry a return pops is the one the call pushed. -/
theorem returnAfterCallRestoresPc : Obligations.ReturnAfterCallRestoresPc := by
  intro s t nnn p hroom hcall
  obtain ⟨_, hpushes, _⟩ := callPushesReturnAddress nnn
  obtain ⟨t', hcall', hentry, hsp, _⟩ := hpushes s ⟨s.sp.val, hroom⟩ rfl
  obtain rfl : t = t' := Host.Outcome.next.inj (hcall.symm.trans hcall')
  obtain ⟨_, hpops, _⟩ := returnPopsPc
  obtain ⟨u, hret, husp, hupc, _⟩ := hpops { t with pc := p } ⟨s.sp.val, hroom⟩ hsp
  exact ⟨u, hret, hupc.trans hentry, Fin.ext husp⟩

end Sys2Proof.Machine
end

section
/-! SUPPORT. What the register writes of the ALU instructions change (00_scope.md R11), and the outcomes that several of them share: a result
alone, or a result and then a flag (42_alu.md R130, R131). -/

namespace Sys2Proof.Machine

section
variable (s : State) (x : Reg) (b : Byte) (f : Bool)

/-- R10. -/
theorem changesOnly_setReg : ChangesOnly s (s.setReg x b) (fun q => q = .reg x) := by
  intro q hq
  cases q with
  | reg r => exact reg_setReg_other s x r b fun hr => hq (congrArg Part.reg hr)
  | _ => simp [Part.same]

/-- R131. -/
theorem changesOnly_setResultFlag : ChangesOnly s (s.setResultFlag x b f) (fun q => q = .reg x ∨ q = .reg 0xF#4) :=
  (changesOnly_setReg s x b).trans (changesOnly_setReg _ 0xF#4 (flagByte f))

theorem changesOnly_countDraw : ChangesOnly s s.countDraw (fun q => q = .draws) := by
  intro q hq
  cases q with
  | draws => exact absurd rfl hq
  | _ => simp [Part.same]

end

/-! ## Flags and operands -/

/-- R131: the flag is written last, so VF holds it also when x = F. -/
theorem setResultFlag_reg_vf (s : State) (x : Reg) (b : Byte) (f : Bool) :
    (s.setResultFlag x b f).reg 0xF#4 = flagByte f := by
  rw [reg_setResultFlag, if_pos rfl]

theorem setResultFlag_reg_result (s : State) {x : Reg} (hx : x ≠ 0xF#4) (b : Byte) (f : Bool) :
    (s.setResultFlag x b f).reg x = b := by
  rw [reg_setResultFlag, if_neg hx, if_pos rfl]

theorem flagByte_toNat (f : Bool) : (flagByte f).toNat = f.toNat := by
  cases f <;> rfl

theorem flagByte_decide (p : Prop) [Decidable p] : flagByte (decide p) = if p then 1#8 else 0#8 := by
  simp only [flagByte, decide_eq_true_eq]

/-- The difference of R139 and R141 in exact integers. -/
theorem toNat_sub_eq_emod (a b : Byte) : ((a - b).toNat : Int) = ((a.toNat : Int) - b.toNat) % 256 := by
  rw [BitVec.toNat_sub]
  omega

/-- R140: bit 0. -/
theorem shiftedOutLow_toNat (b : Byte) : (shiftedOutLow b).toNat = b.toNat % 2 := by
  rw [shiftedOutLow, BitVec.getLsbD, Nat.toNat_testBit, pow_zero, Nat.div_one]

/-- R142: bit 7. -/
theorem shiftedOutHigh_toNat (b : Byte) : (shiftedOutHigh b).toNat = b.toNat / 128 := by
  rw [shiftedOutHigh, BitVec.getLsbD, Nat.toNat_testBit]
  omega

theorem toNat_ushiftRight_one (b : Byte) : (b >>> 1).toNat = b.toNat / 2 := by
  rw [BitVec.toNat_ushiftRight, Nat.shiftRight_eq_div_pow, pow_one]

theorem toNat_shiftLeft_one (b : Byte) : (b <<< 1).toNat = b.toNat * 2 % 256 := by
  rw [BitVec.toNat_shiftLeft, Nat.shiftLeft_eq, pow_one]

/-- R140 and R142: b is the byte that SHIFT_SOURCE names. -/
theorem shiftOperand_eq {s : State} {x y : Reg} {b : Byte}
    (hb : s.config.shiftSource = .vx ∧ b = s.reg x ∨ s.config.shiftSource = .vy ∧ b = s.reg y) :
    s.shiftOperand x y = b := by
  rcases hb with ⟨hsource, rfl⟩ | ⟨hsource, rfl⟩ <;> rw [State.shiftOperand, hsource]

/-! ## The random byte -/

section
variable {s : State} (x : Reg) (nn : Byte)

/-- A byte of the host's is not counted as a draw (log 2). -/
theorem countDraw_of_byte {r : Byte} (hr : s.rnd = some r) : s.countDraw = s := by
  rw [State.countDraw, if_pos (Option.isSome_of_eq_some hr)]

/-- R143. -/
theorem exec_rndVxNn_of_byte {r : Byte} (hr : s.rnd = some r) : exec (.rndVxNn x nn) s = .next (s.setReg x (r &&& nn)) := by
  rw [exec, execRndVxNn, countDraw_of_byte (s := s.setReg x _) hr, State.rndByte, hr, Option.getD_some]

/-- With no byte of the host's, the model's own free byte is written and counted (log 2). -/
theorem exec_rndVxNn_of_no_byte (hr : s.rnd = none) :
    exec (.rndVxNn x nn) s = .next (s.setReg x (Config.rnd s.draws &&& nn)).countDraw := by
  simp only [exec, execRndVxNn, State.rndByte, hr, Option.getD_none]

end

/-! ## Outcomes that several instructions share -/

section
variable {s : State} {i : Instr} {x : Reg}

/-- V[x] receives b, and no flag is written. -/
theorem exec_result_spec {b : Byte} (h : exec i s = .next (s.setReg x b)) :
    ∃ t, exec i s = .next t ∧ t.reg x = b ∧ ChangesOnly s t (fun q => q = .reg x) :=
  ⟨_, h, reg_setReg_same s x b, changesOnly_setReg s x b⟩

/-- R139 and R141: the difference a - b and its NOT-borrow. -/
theorem exec_difference_spec {a b : Byte} (h : exec i s = .next (s.setResultFlag x (a - b) (notBorrowOf a b))) :
    ∃ t, exec i s = .next t ∧ (x ≠ 0xF#4 → ((t.reg x).toNat : Int) = ((a.toNat : Int) - b.toNat) % 256) ∧
      t.reg 0xF#4 = (if b.toNat ≤ a.toNat then 1#8 else 0#8) ∧ ChangesOnly s t (fun q => q = .reg x ∨ q = .reg 0xF#4) := by
  refine ⟨_, h, fun hx => ?_, ?_, changesOnly_setResultFlag s x _ _⟩
  · rw [setResultFlag_reg_result s hx, toNat_sub_eq_emod]
  · rw [setResultFlag_reg_vf, notBorrowOf, flagByte_decide]

/-- R140 and R142: a shifted byte and the bit shifted out. -/
theorem exec_shift_spec {b : Byte} {f : Bool} {n m : Nat} (h : exec i s = .next (s.setResultFlag x b f))
    (hb : b.toNat = n) (hf : f.toNat = m) :
    ∃ t, exec i s = .next t ∧ (x ≠ 0xF#4 → (t.reg x).toNat = n) ∧ (t.reg 0xF#4).toNat = m ∧
      ChangesOnly s t (fun q => q = .reg x ∨ q = .reg 0xF#4) := by
  refine ⟨_, h, fun hx => ?_, ?_, changesOnly_setResultFlag s x _ _⟩
  · rw [setResultFlag_reg_result s hx, hb]
  · rw [setResultFlag_reg_vf, flagByte_toNat, hf]

end

end Sys2Proof.Machine
end

section
/-! SUPPORT. The ALU and register instructions (42_alu.md). -/

namespace Sys2Proof.Machine

/-! ## Without a flag -/

/-- Settles O24. -/
theorem immediateLoadAndAdd : Obligations.ImmediateLoadAndAdd := by
  intro x nn
  refine ⟨decodeOfEncode (.ldVxNn x nn), decodeOfEncode (.addVxNn x nn), fun s => ⟨exec_result_spec rfl, ?_⟩⟩
  obtain ⟨t, hexec, hsum, hframe⟩ := exec_result_spec (i := .addVxNn x nn) (s := s) rfl
  exact ⟨t, hexec, hsum ▸ BitVec.toNat_add .., hframe⟩

/-- Settles O25. -/
theorem copyAndLogic : Obligations.CopyAndLogic := fun x y =>
  ⟨decodeOfEncode (.ldVxVy x y), decodeOfEncode (.orVxVy x y), decodeOfEncode (.andVxVy x y), decodeOfEncode (.xorVxVy x y),
    fun _ => ⟨exec_result_spec rfl, exec_result_spec rfl, exec_result_spec rfl, exec_result_spec rfl⟩⟩

/-! ## With a flag, written last -/

/-- Settles O26. -/
theorem addSetsCarry : Obligations.AddSetsCarry := by
  intro x y
  refine ⟨decodeOfEncode (.addVxVy x y), fun s => ⟨_, rfl, fun hx => ?_, ?_, changesOnly_setResultFlag s x _ _⟩⟩
  · rw [setResultFlag_reg_result s hx, BitVec.toNat_add]
  · rw [setResultFlag_reg_vf, carryOf, flagByte_decide]

/-- Settles O27: SUBN is the difference with its operands exchanged. -/
theorem subtractSetsNotBorrow : Obligations.SubtractSetsNotBorrow := fun x y =>
  ⟨decodeOfEncode (.subVxVy x y), decodeOfEncode (.subnVxVy x y), fun _ => ⟨exec_difference_spec rfl, exec_difference_spec rfl⟩⟩

/-- Settles O28. -/
theorem shiftsSetShiftedOutBit : Obligations.ShiftsSetShiftedOutBit := by
  intro x y
  refine ⟨decodeOfEncode (.shrVxVy x y), decodeOfEncode (.shlVxVy x y), fun s b hb => ?_⟩
  obtain rfl := shiftOperand_eq hb
  exact ⟨exec_shift_spec rfl (toNat_ushiftRight_one _) (shiftedOutLow_toNat _),
    exec_shift_spec rfl (toNat_shiftLeft_one _) (shiftedOutHigh_toNat _)⟩

/-! ## Random byte -/

/-- Settles O29, by whether the rnd input holds a byte of the host's. -/
theorem randomIsMasked : Obligations.RandomIsMasked := by
  intro x nn
  refine ⟨decodeOfEncode (.rndVxNn x nn), fun s r hr => exec_result_spec (exec_rndVxNn_of_byte x nn hr), fun s hr => ?_⟩
  refine ⟨_, exec_rndVxNn_of_no_byte x nn hr, ?_, ?_, (changesOnly_setReg s x _).trans (changesOnly_countDraw _)⟩
  · rw [countDraw_reg, reg_setReg_same]
  · simp [hr]

/-- Settles O7: the fetch moves pc, and the RND writes V[x]. -/
theorem hostChoosesRandomByte : Obligations.HostChoosesRandomByte := by
  intro s x nn r hf hp hword
  have hi : decode (s.fetchWord s.pc) = .ok (.rndVxNn x nn) := decode_eq_ok_iff.2 hword
  refine ⟨_, stepWith_of_rnd hf hp hi r, reg_setReg_same .., rfl, ?_⟩
  exact ((changesOnly_advance s).trans (changesOnly_setReg _ x _)).mono fun _ => Or.symm

end Sys2Proof.Machine
end

section
/-! SUPPORT. What the updates of the index and memory instructions change (00_scope.md R11), and the outcomes that several of them share: a write
of I, and a store at I with its font check (43_index_memory.md, 10_state.md R55). -/

namespace Sys2Proof.Machine

section
variable (s : State) (x : Reg)

/-- R10. -/
theorem changesOnly_setIndex (w : Word) : ChangesOnly s (s.setIndex w) (fun q => q = .index) := by
  intro q hq
  cases q with
  | index => exact absurd rfl hq
  | _ => simp [Part.same]

/-- R165: the registers above V[x] stay. -/
theorem changesOnly_loadRegsUpTo :
    ChangesOnly s (s.loadRegsUpTo x) (fun q => ∃ r : Reg, r.toNat ≤ x.toNat ∧ q = .reg r) := by
  intro q hq
  cases q with
  | reg r => exact (reg_loadRegsUpTo s x r).trans (if_neg fun hle => hq ⟨r, hle, rfl⟩)
  | _ => simp [Part.same]

end

/-! ## The values of I -/

/-- R162: the glyph address fits 16 bits, so it is exact. -/
theorem zextByte_mul_five_toNat (b : Byte) : (zextByte b * 5).toNat = b.toNat * 5 := by
  simp only [zextByte]; bv_omega

section
variable {s : State} (x : Reg)

/-- R161: the value t. -/
theorem indexSum_toNat : (s.indexSum x).toNat = (s.index.toNat + (s.reg x).toNat) % 65536 := by
  simp only [State.indexSum, zextByte]; bv_omega

theorem exec_addIVx_of_singleAdd (hmode : s.config.fx1eMode = .singleAdd) :
    exec (.addIVx x) s = .next (s.setIndex (s.indexSum x)) := by
  rw [exec, execAddIVx, hmode]

theorem exec_addIVx_of_referenceDoubleAdd (hmode : s.config.fx1eMode = .referenceDoubleAdd) :
    exec (.addIVx x) s = .next (s.doubleAddIndex x) := by
  rw [exec, execAddIVx, hmode]

theorem doubleAddIndex_of_fits (hfits : s.index.toNat + (s.indexSum x).toNat < 65536) :
    s.doubleAddIndex x = s.setIndex (s.index + s.indexSum x) := if_pos hfits

theorem doubleAddIndex_of_overflow (hover : 65536 ≤ s.index.toNat + (s.indexSum x).toNat) :
    s.doubleAddIndex x = s.raiseInstr .indexOverflow (.addIVx x) := if_neg (Nat.not_lt.2 hover)

end

/-! ## The font check of a store -/

section
variable {s : State} (i : Instr) {bytes : List Byte}

theorem storeAtIndex_of_clear (hclear : ∀ k < bytes.length, fontSize ≤ (s.index.toNat + k) % memSize) :
    s.storeAtIndex i bytes = s.writeBytes s.index.toNat bytes :=
  if_neg (Bool.eq_false_iff.1 ((storesIntoFont_eq_false ..).2 hclear))

theorem storeAtIndex_of_font (hfont : ∃ k < bytes.length, (s.index.toNat + k) % memSize < fontSize) :
    s.storeAtIndex i bytes = s.raiseInstr .fontRegionWrite i :=
  if_pos ((storesIntoFont_eq_true ..).2 hfont)

end

/-! ## Outcomes that several instructions share -/

section
variable {s : State} {i : Instr}

/-- R27: I receives a value, and nothing else changes. -/
theorem exec_index_spec {w : Word} {n : Nat} (h : exec i s = .next (s.setIndex w)) (hw : w.toNat = n) :
    ∃ t, exec i s = .next t ∧ t.index.toNat = n ∧ ChangesOnly s t (fun q => q = .index) :=
  ⟨_, h, hw, changesOnly_setIndex s w⟩

variable {bytes : List Byte} (h : exec i s = .next (s.storeAtIndex i bytes))
include h

/-- R54 and R55: a store none of whose targets lies in the font region. -/
theorem exec_store_spec (hlen : bytes.length ≤ memSize)
    (hclear : ∀ k < bytes.length, fontSize ≤ (s.index.toNat + k) % memSize) :
    ∃ t, exec i s = .next t ∧ (∀ (k : Nat) (hk : k < bytes.length), t.readByte (s.index.toNat + k) = bytes[k]) ∧
      ChangesOnly s t (fun q => ∃ k < bytes.length, q = .atAddress (s.index.toNat + k)) :=
  ⟨_, h.trans (congrArg _ (storeAtIndex_of_clear i hclear)), readByte_writeBytes bytes hlen s _, changesOnly_writeBytes s _ bytes⟩

/-- R55: a store with a target in the font region raises the fault, before any byte is written. -/
theorem exec_store_fault_spec (hfont : ∃ k < bytes.length, (s.index.toNat + k) % memSize < fontSize) :
    ∃ t, exec i s = .next t ∧ t.fault = some (s.fault.getD ⟨.machineFault, .fontRegionWrite, s.pc - 2, encode i⟩) ∧
      ChangesOnly s t (fun q => q = .fault) :=
  exec_fault_spec (h.trans (congrArg _ (storeAtIndex_of_font i hfont)))

end

end Sys2Proof.Machine
end

section
/-! SUPPORT. The index register and memory instructions (43_index_memory.md). -/

namespace Sys2Proof.Machine

/-! ## Writes of I -/

/-- Settles O30. -/
theorem indexLoads : Obligations.IndexLoads :=
  ⟨fun nnn => ⟨decodeOfEncode (.ldINnn nnn), fun _ => exec_index_spec rfl (zextAddr_toNat nnn)⟩,
    fun x => ⟨decodeOfEncode (.ldFVx x), fun _ => exec_index_spec rfl (zextByte_mul_five_toNat _)⟩⟩

/-- Settles O31, by FX1E_MODE and, for the double add, by whether the exact sum fits 16 bits. -/
theorem indexAdd : Obligations.IndexAdd := by
  intro x
  refine ⟨decodeOfEncode (.addIVx x), fun s => ?_⟩
  rw [← indexSum_toNat]
  refine ⟨fun hmode => ?_, fun hmode hfits => ?_, fun hmode hover => ?_⟩
  · exact exec_index_spec (exec_addIVx_of_singleAdd x hmode) rfl
  · have hexec := exec_addIVx_of_referenceDoubleAdd x hmode
    rw [doubleAddIndex_of_fits x hfits] at hexec
    exact exec_index_spec hexec (BitVec.toNat_add_of_lt hfits)
  · have hexec := exec_addIVx_of_referenceDoubleAdd x hmode
    rw [doubleAddIndex_of_overflow x hover] at hexec
    exact exec_fault_spec hexec

/-! ## Stores at I -/

/-- R163: each digit fits its byte. -/
theorem decimalDigits_toNat (b : Byte) : ∀ (k : Nat) (hk : k < 3),
    ((decimalDigits b)[k]'hk).toNat = [b.toNat / 100, b.toNat / 10 % 10, b.toNat % 10][k]
  | 0, _ => Nat.mod_eq_of_lt (by have := b.isLt; omega)
  | 1, _ => Nat.mod_eq_of_lt (by omega)
  | 2, _ => Nat.mod_eq_of_lt (by omega)

/-- Settles O32: a store of the three digits. -/
theorem decimalStore : Obligations.DecimalStore := by
  intro x
  refine ⟨decodeOfEncode (.ldBVx x), fun s => ⟨fun hclear => ?_, exec_store_fault_spec (i := .ldBVx x) rfl⟩⟩
  obtain ⟨t, hexec, hread, hframe⟩ := exec_store_spec (i := .ldBVx x) rfl (by decide : 3 ≤ memSize) hclear
  have hdigit (k : Nat) (hk : k < 3) := (congrArg BitVec.toNat (hread k hk)).trans (decimalDigits_toNat (s.reg x) k hk)
  exact ⟨t, hexec, hdigit 0 (by decide), hdigit 1 (by decide), hdigit 2 (by decide), hframe⟩

/-- Settles O33: a store of the registers up to V[x]. -/
theorem registerStore : Obligations.RegisterStore := by
  intro x
  refine ⟨decodeOfEncode (.ldMemIVx x), fun s => ?_⟩
  have hlength (k : Nat) : k ≤ x.toNat ↔ k < (s.regsUpTo x).length := by rw [regsUpTo_length, Nat.lt_succ_iff]
  simp only [hlength]
  refine ⟨fun hclear => ?_, exec_store_fault_spec rfl⟩
  have hlen : (s.regsUpTo x).length ≤ memSize := by have := x.isLt; simp only [regsUpTo_length, memSize]; omega
  obtain ⟨t, hexec, hread, hframe⟩ := exec_store_spec (i := .ldMemIVx x) rfl hlen hclear
  refine ⟨t, hexec, fun r hr => ?_, hframe⟩
  rw [hread r.toNat hr, regsUpTo_getElem, BitVec.ofNat_toNat, BitVec.setWidth_eq]

/-! ## Loads from I -/

/-- Settles O34. -/
theorem registerLoad : Obligations.RegisterLoad := by
  intro x
  refine ⟨decodeOfEncode (.ldVxMemI x), fun s => ⟨_, rfl, fun r hr => ?_, changesOnly_loadRegsUpTo s x⟩⟩
  rw [reg_loadRegsUpTo, if_pos hr]
  exact readByte_eq_of_mod_eq s (Nat.mod_mod _ _).symm

end Sys2Proof.Machine
end

section
/-! SUPPORT. The pixels a framebuffer write changes (00_scope.md R11), and what the sprite of Dxyn does to the covered pixels, in the terms of
`spriteCovers` (44_display.md R182, R183). -/

namespace Sys2Proof.Machine

/-! ## Framebuffer writes -/

/-- R33: a new framebuffer changes pixels only, none of them outside a region on which the two framebuffers agree. -/
theorem changesOnly_setFb (s : State) {fb : Framebuffer} {region : Fin 64 → Fin 32 → Prop}
    (h : ∀ px py, ¬ region px py → Framebuffer.pixel fb px py = Framebuffer.pixel s.fb px py) :
    ChangesOnly s (s.setFb fb) (fun q => ∃ px py, region px py ∧ q = .pixel px py) := by
  intro q hq
  cases q with
  | pixel px py => exact h px py fun hregion => hq ⟨px, py, hregion, rfl⟩
  | _ => simp [Part.same]

/-! ## The sprite -/

theorem eq_wrapColumn_iff {px : Fin 64} {k : Nat} : px = wrapColumn k ↔ px.val = k % 64 := Fin.ext_iff

theorem eq_wrapRow_iff {py : Fin 32} {k : Nat} : py = wrapRow k ↔ py.val = k % 32 := Fin.ext_iff

/-- R52: a sprite row is read at its address mod 4096. -/
theorem readByte_dataAddr (s : State) (k : Nat) : s.readByte (s.dataAddr k) = s.readByte ((s.index.toNat + k) % memSize) :=
  readByte_eq_of_mod_eq s (Nat.mod_mod _ _).symm

/-- R182: the loops toggle exactly the covered pixels. -/
theorem drawnOver_spriteCovers (s : State) (x y : Reg) (n : Nibble) :
    DrawnOver ⟨s.fb, false⟩ (s.drawSprite (s.reg x) (s.reg y) n) (spriteCovers s x y n) := by
  refine (drawnOver_drawSprite s (s.reg x) (s.reg y) n).congr fun px py => ?_
  simp only [spriteCovers, spriteBit, readByte_dataAddr, eq_wrapColumn_iff, eq_wrapRow_iff]

/-- R183: the collision output of a draw is whether a covered pixel was lit. -/
theorem drawSprite_collision (s : State) (x y : Reg) (n : Nibble) :
    (s.drawSprite (s.reg x) (s.reg y) n).collision = true ↔
      ∃ px py, spriteCovers s x y n px py ∧ Framebuffer.pixel s.fb px py = true := by
  simpa using (drawnOver_spriteCovers s x y n).collision

section
variable {s t : State} {x y : Reg} {n : Nibble}

/-- R182: the framebuffer that Dxyn leaves. -/
theorem drawnOver_of_exec_drwVxVyN (h : exec (.drwVxVyN x y n) s = .next t) :
    ∃ collision, DrawnOver ⟨s.fb, false⟩ ⟨t.fb, collision⟩ (spriteCovers s x y n) := by
  cases h
  exact ⟨_, drawnOver_spriteCovers s x y n⟩

/-- A draw writes VF and pixels, which does not move a sprite whose coordinates are not in VF, and neither does a write of pc. -/
theorem spriteCovers_after_draw (hx : x ≠ 0xF#4) (hy : y ≠ 0xF#4) (h : exec (.drwVxVyN x y n) s = .next t) (p : Word) :
    spriteCovers (t.setPc p) x y n = spriteCovers s x y n := by
  cases h
  funext px py
  simp [spriteCovers, reg_setReg_other, hx, hy]

end

/-- Two draws over the same pixels cancel, whatever the second finds in the collision output. -/
theorem DrawnOver.fb_eq_of_twice {d d' e e' : Drawing} {covers : Fin 64 → Fin 32 → Prop} (h : DrawnOver d d' covers)
    (h' : DrawnOver e e' covers) (hmid : e.fb = d'.fb) : e'.fb = d.fb := by
  refine fb_ext _ _ fun px py => ?_
  by_cases hc : covers px py
  · rw [h'.toggled px py hc, hmid, h.toggled px py hc, Bool.not_not]
  · rw [h'.kept px py hc, hmid, h.kept px py hc]

end Sys2Proof.Machine
end

section
/-! SUPPORT. The display instructions (44_display.md). -/

namespace Sys2Proof.Machine

/-- Settles O36: the covered pixels are toggled, then VF receives the collision output. -/
theorem drawTogglesCoveredPixels : Obligations.DrawTogglesCoveredPixels := by
  intro x y n
  refine ⟨decodeOfEncode (.drwVxVyN x y n), fun s => ?_⟩
  have hdraw := drawnOver_spriteCovers s x y n
  refine ⟨_, rfl, hdraw.toggled, fun hlit => ?_, fun hdark => ?_, ?_⟩
  · rw [reg_setReg_same, (drawSprite_collision s x y n).2 hlit]; rfl
  · rw [reg_setReg_same, Bool.eq_false_iff.2 (mt (drawSprite_collision s x y n).1 hdark)]; rfl
  · exact ((changesOnly_setFb s hdraw.kept).trans (changesOnly_setReg _ 0xF#4 _)).mono fun _ => Or.symm

/-- Settles O37: the second draw covers the pixels that the first one did. -/
theorem drawingTwiceRestoresPicture : Obligations.DrawingTwiceRestoresPicture := by
  intro x y n s t u p hx hy ht hu
  obtain ⟨_, hfirst⟩ := drawnOver_of_exec_drwVxVyN ht
  obtain ⟨_, hsecond⟩ := drawnOver_of_exec_drwVxVyN (s := t.setPc p) hu
  rw [spriteCovers_after_draw hx hy ht] at hsecond
  exact hfirst.fb_eq_of_twice hsecond rfl

/-- Settles O35. -/
theorem clearScreen : Obligations.ClearScreen := by
  refine ⟨fun _ => decode_eq_ok_iff, fun s => ⟨_, rfl, pixel_blank, ?_⟩⟩
  refine (changesOnly_setFb s (region := fun _ _ => True) fun _ _ hout => absurd trivial hout).mono ?_
  exact fun _ ⟨px, py, _, hq⟩ => ⟨px, py, hq⟩

end Sys2Proof.Machine
end

section
/-! SUPPORT. What the updates of the timers and the keys change (00_scope.md R11), and the cases of the key instructions (45_timers_keys.md R190,
R191, R193), of SET_KEY (R199), of a timer's tick (R196) and of the sound outputs (R197, R198). -/

namespace Sys2Proof.Machine

section
variable (s : State)

/-- R30. -/
theorem changesOnly_setDt (b : Byte) : ChangesOnly s (s.setDt b) (fun q => q = .dt) := by
  intro q hq
  cases q with
  | dt => exact absurd rfl hq
  | _ => simp [Part.same]

/-- R31. -/
theorem changesOnly_setSt (b : Byte) : ChangesOnly s (s.setSt b) (fun q => q = .st) := by
  intro q hq
  cases q with
  | st => exact absurd rfl hq
  | _ => simp [Part.same]

/-- R199: every other key keeps its level. -/
theorem changesOnly_setKey (k : Fin 16) (pressed : Bool) : ChangesOnly s (s.setKey k pressed) (fun q => q = .key k) := by
  intro q hq
  cases q with
  | key j =>
    have hj : k.val ≠ j.val := fun heq => hq (congrArg Part.key (Fin.ext heq.symm))
    exact Vector.getElem_set_ne k.isLt j.isLt hj
  | _ => simp [Part.same]

end

/-! ## Key skips -/

section
variable {s : State} {i : Instr} {x : Reg} {level : Bool}

theorem skipOnKey_of_key {k : Fin 16} (hk : (s.reg x).toNat = k.val) :
    s.skipOnKey i x level = s.skipIf (s.key[k.val] == level) := by
  obtain ⟨j, hj, hskip⟩ | ⟨hhigh, _⟩ := skipOnKey_cases s i x level
  · obtain rfl : j = k := Fin.ext (hj.symm.trans hk)
    exact hskip
  · omega

theorem skipOnKey_of_high (hhigh : 15 < (s.reg x).toNat) : s.skipOnKey i x level = s.raiseInstr .keyIndexOutOfRange i :=
  dif_neg (by omega)

variable (h : exec i s = .next (s.skipOnKey i x level))
include h

/-- R190 and R191: the skip on the level of the key V[x]. -/
theorem exec_keySkip_spec {k : Fin 16} (hk : (s.reg x).toNat = k.val) :
    ∃ t, exec i s = .next t ∧ (s.key[k.val] = level → t.pc = s.pc + 2) ∧ (s.key[k.val] = !level → t.pc = s.pc) ∧
      ChangesOnly s t (fun q => q = .pc) := by
  rw [skipOnKey_of_key hk] at h
  exact exec_skip_spec h beq_iff_eq.2 fun hkey => by rw [hkey, Bool.not_beq_self]

/-- R190 and R191: the fault of a key index above 15. -/
theorem exec_keySkip_fault_spec (hhigh : 15 < (s.reg x).toNat) :
    ∃ t, exec i s = .next t ∧ t.fault = some (s.fault.getD ⟨.machineFault, .keyIndexOutOfRange, s.pc - 2, encode i⟩) ∧
      ChangesOnly s t (fun q => q = .fault) := by
  rw [skipOnKey_of_high hhigh] at h
  exact exec_fault_spec h

end

/-! ## The key wait -/

section
variable {s : State} (x : Reg)

theorem exec_ldVxK_of_lowest {k : Fin 16} (hk : s.lowestKey = some k) :
    exec (.ldVxK x) s = .next (s.setReg x (BitVec.ofNat 8 k.val)) := by
  rw [exec, execLdVxK, hk]

theorem exec_ldVxK_of_no_key (hnone : ∀ k : Fin 16, s.key[k.val] = false) :
    exec (.ldVxK x) s = .next (s.setPc (s.pc - 2)) := by
  rw [exec, execLdVxK, (lowestKey_eq_none s).2 hnone]

end

/-- R193 (c): pc back by 2 after the fetch is the state before it. -/
theorem advance_setPc_back (s : State) : s.advance.setPc (s.advance.pc - 2) = s := by
  rw [advance_pc, BitVec.add_sub_cancel]
  rfl

theorem not_runsRnd_of_decode {s : State} {i : Instr} (hi : decode (s.fetchWord s.pc) = .ok i) (hne : ∀ x nn, i ≠ .rndVxNn x nn) :
    ¬ s.runsRnd := by
  rintro ⟨_, _, x, nn, hrnd⟩
  exact hne x nn (Except.ok.inj (hi.symm.trans hrnd))

/-! ## SET_KEY -/

theorem doSetKey_of_key (s : State) (k : Fin 16) (pressed : Bool) : s.doSetKey k.val pressed = s.setKey k pressed :=
  dif_pos k.isLt

theorem doSetKey_of_high (s : State) {index : Nat} (hhigh : 15 < index) (pressed : Bool) :
    s.doSetKey index pressed = s.raise .keyIndexOutOfRange s.pc (BitVec.ofNat 16 index) := dif_neg (by omega)

/-! ## Timers and sound outputs -/

section
variable {b : Byte}

theorem tickDown_of_eq_zero (hb : b = 0#8) : tickDown b = 0#8 := if_pos hb

theorem tickDown_toNat_succ (hb : b ≠ 0#8) : (tickDown b).toNat + 1 = b.toNat := by
  rw [tickDown, if_neg hb]
  bv_omega

end

/-- R196: the two timers are the parts a tick writes. -/
theorem changesOnly_doTick (s : State) : ChangesOnly s s.doTick (fun q => q = .dt ∨ q = .st) :=
  (changesOnly_setDt s _).trans (changesOnly_setSt _ _)

section
variable {c : Command} {s t : State}

theorem response_soundStop_iff : (response c s t).soundStop = true ↔ c = .tick ∧ s.st = 1#8 := by
  simp [response]

/-- R198. -/
theorem response_soundActive_iff : (response c s t).soundActive = true ↔ t.st ≠ 0#8 := by
  simp [response]

end

end Sys2Proof.Machine
end

section
/-! SUPPORT. The timers and the keypad (45_timers_keys.md): the key and timer instructions, and the commands TICK and SET_KEY. -/

namespace Sys2Proof.Machine

/-! ## Keys -/

/-- Settles O39, by the lowest pressed key. -/
theorem keyWait : Obligations.KeyWait := by
  intro x
  refine ⟨decodeOfEncode (.ldVxK x), fun s k hk hlower => ?_, fun s hnone => ?_⟩
  · obtain ⟨t, hexec, hreg, hframe⟩ := exec_result_spec (exec_ldVxK_of_lowest x ((lowestKey_eq_some s k).2 ⟨hk, hlower⟩))
    have hfits : k.val < 2 ^ 8 := by omega
    exact ⟨t, hexec, hreg ▸ (BitVec.toNat_ofNat ..).trans (Nat.mod_eq_of_lt hfits), hframe⟩
  · exact ⟨_, exec_ldVxK_of_no_key x hnone, rfl, changesOnly_setPc s _⟩

/-- Settles O38. -/
theorem keySkips : Obligations.KeySkips := fun x =>
  ⟨decodeOfEncode (.skpVx x), decodeOfEncode (.sknpVx x),
    fun _ _ hk => ⟨exec_keySkip_spec (i := .skpVx x) rfl hk, exec_keySkip_spec (i := .sknpVx x) rfl hk⟩,
    fun _ hhigh => ⟨exec_keySkip_fault_spec (i := .skpVx x) rfl hhigh, exec_keySkip_fault_spec (i := .sknpVx x) rfl hhigh⟩⟩

/-- Settles O40: the wait sets pc back to where the fetch found it, and reads no random byte. -/
theorem keyWaitSpins : Obligations.KeyWaitSpins := by
  intro s x hf hp hword hnone
  have hi : decode (s.fetchWord s.pc) = .ok (.ldVxK x) := decode_eq_ok_iff.2 hword
  have hstep : step s = .next s := by
    rw [step_of_decode hf hp hi, exec_ldVxK_of_no_key (s := s.advance) x hnone, advance_setPc_back]
  exact ⟨hstep, fun r => (stepWith_eq_step (not_runsRnd_of_decode hi nofun) r).trans hstep⟩

/-- Settles O45, by whether the index is a key's. -/
theorem setKeyWritesLevel : Obligations.SetKeyWritesLevel := by
  refine fun s pressed => ⟨fun k => ?_, fun index hhigh => ?_⟩
  · refine ⟨_, congrArg Host.Outcome.next (doSetKey_of_key s k pressed), ?_, changesOnly_setKey s k pressed⟩
    exact Vector.getElem_set_self k.isLt
  · refine ⟨_, congrArg Host.Outcome.next (doSetKey_of_high s hhigh pressed), ?_, changesOnly_raise s _ _ _⟩
    rw [ofNat_mod_word]
    exact raise_fault ..

/-! ## Timers -/

/-- Settles O41. -/
theorem delayTimerMoves : Obligations.DelayTimerMoves := fun x =>
  ⟨decodeOfEncode (.ldVxDt x), decodeOfEncode (.ldDtVx x),
    fun s => ⟨exec_result_spec rfl, _, rfl, rfl, changesOnly_setDt s _⟩⟩

/-- Settles O42: a STEP is no TICK. -/
theorem soundTimerSet : Obligations.SoundTimerSet := by
  refine fun x => ⟨decodeOfEncode (.ldStVx x), fun s => ⟨_, rfl, rfl, fun r => ⟨?_, response_soundActive_iff⟩, changesOnly_setSt s _⟩⟩
  rw [Bool.eq_false_iff, Ne, response_soundStop_iff]
  rintro ⟨htick, _⟩
  cases htick

/-- Settles O43: each timer is its own tick. -/
theorem tickCountsDown : Obligations.TickCountsDown := by
  refine fun s => ⟨_, rfl, tickDown_of_eq_zero, tickDown_toNat_succ, tickDown_of_eq_zero, tickDown_toNat_succ, ?_, changesOnly_doTick s⟩
  rw [response_soundStop_iff]
  exact and_iff_right rfl

/-- Settles O44: a TICK that finds ST at 1 leaves it at 0. -/
theorem soundOutputs : Obligations.SoundOutputs := by
  refine fun c s t h => ⟨response_soundStop_iff.trans ⟨?_, fun ⟨hc, hst, _⟩ => ⟨hc, hst⟩⟩, response_soundActive_iff⟩
  rintro ⟨rfl, hst⟩
  cases h
  exact ⟨rfl, hst, congrArg tickDown hst⟩

end Sys2Proof.Machine
end

section
/-! SUPPORT. What a faulting command leaves (60_exceptions.md R212, R214, R215): from an unlatched state it is one `State.raise` at the pc where the
command began, after the fetch if there was one, and a latched fault stays until RESET. -/

namespace Sys2Proof.Machine

/-! ## The record a fault leaves -/

/-- R211: with no fault latched the latch takes the new record. -/
theorem raise_fault_eq_some_iff {s : State} (hs : s.fault = none) {c : FaultCause} {a w : Word} {f : FaultRecord} :
    (s.raise c a w).fault = some f ↔ f = ⟨c.kind, c, a, w⟩ := by
  rw [raise_fault, hs, Option.getD_none, Option.some_inj, eq_comm]

/-- R211: a fault of the executing instruction records the address of the fetch and the fetched word. -/
theorem advance_raiseInstr {s : State} {i : Instr} (hi : decode (s.fetchWord s.pc) = .ok i) (c : FaultCause) :
    s.advance.raiseInstr c i = s.advance.raise c s.pc (s.fetchWord s.pc) := by
  rw [State.raiseInstr, advance_pc, BitVec.add_sub_cancel, encodeOfDecode _ _ hi]

/-- R95 and R214: a fault after the fetch changes pc and the latch. -/
theorem changesOnly_advance_raise (s : State) (c : FaultCause) (a w : Word) :
    ChangesOnly s (s.advance.raise c a w) (fun q => q = .pc ∨ q = .fault) :=
  (changesOnly_advance s).trans (changesOnly_raise s.advance c a w)

/-! ## The faults of each command -/

section
variable {s t : State} {c : Command}

/-- A STEP that sets the latch: the fetch fault of R94, or after the fetch an illegal word or a fault of the instruction. -/
theorem step_fault_cases (hs : s.fault = none) (h : step s = .next t) (ht : t.fault ≠ none) :
    t = s.raise .pcOutOfRange s.pc 0#16 ∨
    ∃ cause, cause ≠ .pcOutOfRange ∧ t = s.advance.raise cause s.pc (s.fetchWord s.pc) := by
  rcases step_cases h with ⟨f, hf, _⟩ | ⟨_, _, rfl⟩ | ⟨_, _, _, rfl⟩ | ⟨_, _, i, hi, hexec⟩
  · simp [hs] at hf
  · exact .inl rfl
  · exact .inr ⟨.unimplemented, by decide, rfl⟩
  · rcases exec_keeps_latch_or_faults hexec with hkept | ⟨cause, hcause, _, rfl⟩
    · exact absurd (hkept.trans hs) ht
    · exact .inr ⟨cause, hcause, advance_raiseInstr hi cause⟩

/-- The command STEP that sets the latch runs no RND, so it is `step`. -/
theorem step_of_stepWith_faults {r : Byte} (h : stepWith r s = .next t) (ht : t.fault ≠ none) : step s = .next t := by
  by_cases hrnd : s.runsRnd
  · obtain ⟨hf, hp, x, nn, hi⟩ := hrnd
    rw [stepWith_of_rnd hf hp hi] at h
    cases h
    exact absurd hf ht
  · exact (stepWith_eq_step hrnd r).symm.trans h

/-- A command that sets the latch is a faulting STEP, or a LOAD or SET_KEY that raises its fault at once. -/
theorem runCommand_fault_cases (hs : s.fault = none) (h : runCommand c s = .next t) (ht : t.fault ≠ none) :
    ((∃ r, c = .step r) ∧ t = s.raise .pcOutOfRange s.pc 0#16) ∨
    ((∃ r, c = .step r) ∧ ∃ cause, cause ≠ .pcOutOfRange ∧ t = s.advance.raise cause s.pc (s.fetchWord s.pc)) ∨
    ((¬ ∃ r, c = .step r) ∧ ∃ cause word, t = s.raise cause s.pc word) := by
  cases c with
  | reset => cases h; exact absurd rfl ht
  | load bytes =>
    cases h
    rcases doLoad_cases s bytes with ⟨_, hload⟩ | ⟨_, hload⟩ <;> rw [hload] at ht ⊢
    · exact absurd ((writeBytes_fault ..).trans hs) ht
    · exact .inr (.inr ⟨nofun, _, _, rfl⟩)
  | setKey index pressed =>
    cases h
    rcases doSetKey_cases s index pressed with ⟨k, _, hkey⟩ | ⟨_, hkey⟩ <;> rw [hkey] at ht ⊢
    · exact absurd hs ht
    · exact .inr (.inr ⟨nofun, _, _, rfl⟩)
  | step r =>
    rcases step_fault_cases hs (step_of_stepWith_faults h ht) ht with hfetch | hexec
    · exact .inl ⟨⟨r, rfl⟩, hfetch⟩
    · exact .inr (.inl ⟨⟨r, rfl⟩, hexec⟩)
  | tick => cases h; exact absurd hs ht
  | readFb => cases h; exact absurd hs ht

end

/-! ## Host commands under a set latch -/

section
variable {s : State} {f : FaultRecord}

/-- R98 and R214. -/
theorem doLoad_of_latched (hf : s.fault = some f) {bytes : List Byte} (hlong : maxImage < bytes.length) :
    s.doLoad bytes = s :=
  (if_neg (Nat.not_le.2 hlong)).trans (raise_of_latched hf ..)

/-- R199 and R214. -/
theorem doSetKey_of_latched (hf : s.fault = some f) {index : Nat} (hhigh : 15 < index) (pressed : Bool) :
    s.doSetKey index pressed = s :=
  (doSetKey_of_high s hhigh pressed).trans (raise_of_latched hf ..)

end

/-- Settles O51: each fault of a command is one `State.raise`, whose record names the cause, the pc before the fetch and the word. -/
theorem faultingCommandKeepsEverythingElse : Obligations.FaultingCommandKeepsEverythingElse := by
  refine ⟨fun c s t f hs h ht => ?_, fun c s t f hf hc h => runCommand_keeps_latched hf hc h, fun s hs => ?_⟩
  · rcases runCommand_fault_cases hs h (by simp [ht]) with
      ⟨hstep, rfl⟩ | ⟨hstep, cause, hcause, rfl⟩ | ⟨hhost, cause, word, rfl⟩
    · obtain rfl := (raise_fault_eq_some_iff hs).1 ht
      exact ⟨(changesOnly_raise s _ _ _).mono fun _ => .inr, rfl, rfl, fun _ hne => absurd rfl hne,
        fun _ _ => ⟨raise_pc .., rfl⟩, fun hhost => absurd hstep hhost⟩
    · obtain rfl := (raise_fault_eq_some_iff (s := s.advance) hs).1 ht
      exact ⟨changesOnly_advance_raise s _ _ _, rfl, rfl, fun _ _ => ⟨raise_pc .., rfl⟩,
        fun _ hfetch => absurd hfetch hcause, fun hhost => absurd hstep hhost⟩
    · obtain rfl := (raise_fault_eq_some_iff hs).1 ht
      exact ⟨(changesOnly_raise s _ _ _).mono fun _ => .inr, rfl, rfl, fun hstep => absurd hstep hhost,
        fun hstep => absurd hstep hhost, fun _ => raise_pc ..⟩
  · obtain ⟨f, hf⟩ := Option.ne_none_iff_exists'.1 hs
    exact ⟨fun _ hlong => congrArg _ (doLoad_of_latched hf hlong),
      fun _ pressed hhigh => congrArg _ (doSetKey_of_latched hf hhigh pressed)⟩

/-- Settles O11: a word on R77's list does not decode, so no RND runs and the host's byte makes no difference. -/
theorem illegalWordFaults : Obligations.IllegalWordFaults := by
  intro s hf hp hword
  have hdecode : decode (s.fetchWord s.pc) = .error (.unrecognized (s.fetchWord s.pc)) :=
    decode_eq_error_iff.2 ⟨hword, rfl⟩
  have hstep := step_of_illegal hf hp hdecode
  have hs : ¬ s.runsRnd := fun ⟨_, _, x, nn, hrnd⟩ => by simp [hdecode] at hrnd
  exact ⟨_, hstep, fun r => (stepWith_eq_step hs r).trans hstep, (raise_fault_eq_some_iff (s := s.advance) hf).2 rfl,
    raise_pc .., changesOnly_advance_raise s _ _ _⟩

/-- Settles O52. -/
theorem firstFaultStaysUntilReset : Obligations.FirstFaultStaysUntilReset := by
  intro c s t f hf h
  obtain ⟨_, hstep, hreset⟩ := faultedStepChangesNothing s f hf
  refine ⟨?_, fun hc => runCommand_keeps_latched hf hc h, (hreset c t h).2, fun ⟨hnone, _⟩ => ?_⟩
  · rintro ⟨r, rfl⟩
    exact Host.Outcome.next.inj (h.symm.trans (hstep r).1)
  · simp [hf] at hnone

end Sys2Proof.Machine
end

section
/-! SUPPORT. RESET (70_reset_and_hazards.md R240 to R242): what every piece of state holds after it, and that LOAD neither reads nor changes the count
of draws, the one field that RESET keeps and power-on does not (log 2). -/

namespace Sys2Proof.Machine

/-! ## The reset contents of memory -/

/-- R39: above the font region memory is 0x00. -/
theorem resetWith_readByte_above_font (c : Config) {a : Nat} (hlow : fontSize ≤ a) (hhigh : a < memSize) :
    (State.resetWith c).readByte a = 0#8 := by
  have hfont : ¬ a < 80 := Nat.not_lt.2 hlow
  simp [State.readByte, State.resetWith, Memory.read, Memory.base, Nat.mod_eq_of_lt hhigh, hfont]

/-- Settles O48. -/
theorem resetSetsEveryPart : Obligations.ResetSetsEveryPart := by
  intro s
  have hreg : ∀ x, s.doReset.reg x = 0#8 := fun x => Vector.getElem_replicate _
  have hstack : ∀ j : Fin 16, s.doReset.stack[j.val] = 0#16 := fun j => Vector.getElem_replicate _
  have hkey : ∀ k : Fin 16, s.doReset.key[k.val] = false := fun k => Vector.getElem_replicate _
  have hbyte : ∀ a, s.doReset.readByte a = (State.resetWith s.config).readByte a := fun _ => rfl
  exact ⟨s.doReset, rfl, hreg, rfl, rfl, hstack, rfl, rfl, rfl, hkey, pixel_blank, rfl,
    fun a => (hbyte a).trans (resetWith_readByte s.config a),
    fun a hlow hhigh => (hbyte a).trans (resetWith_readByte_above_font s.config hlow hhigh)⟩

/-! ## Power-on -/

/-- RESET gives the power-on state of the block's own parameters when no draw was made. -/
theorem doReset_eq_resetWith {s : State} (hdraws : s.draws = 0) : s.doReset = State.resetWith s.config := by
  rw [State.doReset, hdraws]
  rfl

/-- Settles O49. -/
theorem powerOnEqualsReset : Obligations.PowerOnEqualsReset := by
  intro s hconfig hdraws
  have hreset : s.doReset = State.reset := by rw [doReset_eq_resetWith hdraws, hconfig]; rfl
  exact congrArg Host.Outcome.next hreset

/-! ## LOAD and the count of draws -/

section
variable (s : State) (n : Nat)

theorem writeBytes_withDraws (a : Nat) (bytes : List Byte) :
    { s with draws := n }.writeBytes a bytes = { s.writeBytes a bytes with draws := n } := by
  induction bytes generalizing s a with
  | nil => rfl
  | cons b rest ih => exact ih (s.writeByte a b) (a + 1)

theorem raise_withDraws (c : FaultCause) (a w : Word) :
    { s with draws := n }.raise c a w = { s.raise c a w with draws := n } := by
  simp only [State.raise]
  split <;> rfl

/-- R98: LOAD does the same whatever the count of draws, with an image that fits and with one that faults. -/
theorem doLoad_withDraws (bytes : List Byte) :
    { s with draws := n }.doLoad bytes = { s.doLoad bytes with draws := n } := by
  unfold State.doLoad
  split
  · exact writeBytes_withDraws s n progBase bytes
  · exact raise_withDraws s n ..

end

/-- Settles O50: the state after RESET is the power-on state up to the count of draws, and LOAD carries that difference along. -/
theorem resetThenLoadEqualsPowerOnThenLoad : Obligations.ResetThenLoadEqualsPowerOnThenLoad := by
  intro s bytes
  have hload : s.doReset.doLoad bytes = { (State.resetWith s.config).doLoad bytes with draws := s.draws } :=
    doLoad_withDraws (State.resetWith s.config) s.draws bytes
  exact ⟨s.doReset.doLoad bytes, (State.resetWith s.config).doLoad bytes, rfl, rfl, by rw [hload]⟩

end Sys2Proof.Machine
end
